-- ==== Sys2Proof/Word.lean ====
section
/-! DEFINITION. The widths of this hardware: a byte, an instruction word (R91), the register and the
64-bit general registers (R3, R67), one field of the register (R18). -/

namespace Sys2Proof

/-- Eight bits: the unit in which an instruction word is given as bytes (R79). -/
abbrev Byte := BitVec 8

/-- One A64 instruction: 32 bits (R91). -/
abbrev InstrWord := BitVec 32

/-- A 64-bit value: the register itself (R3), a general register (R67), the program counter (R69). -/
abbrev XWord := BitVec 64

/-- One field of the register: an unsigned 4-bit number (R11, R18). -/
abbrev Nibble := BitVec 4

end Sys2Proof
end

