-- ==== Sys2Proof/Config.lean ====
section
/-! DEFINITION. What one implementation fixes: the parameters of 00_scope.md rules R7 to R9 and the
spec's own switch of R44. No rule writes them (R9). The machine holds one `Implementation` in its
state, which no step changes, so that a statement over all states quantifies over every
implementation (R121: each PE has its own). -/

namespace Sys2Proof

/-- The implementation parameters of R7, R8, R9 and R44 (the table of R10). Which values go together
is `Implementation.valid` (R57), in Machine/Fields.lean. -/
structure Implementation where
  /-- `ARCH_MINOR` (R7): the implementation is Armv8.`archMinor`; above 5 it is treated as 5. -/
  archMinor : Nat
  /-- `HAVE_EL2` (R8): "EL2 is implemented". -/
  haveEl2 : Bool
  /-- `HAVE_SECEL2` (R8): "ARMv8.4-SecEL2 is implemented". -/
  haveSecEl2 : Bool
  /-- `HAVE_EVT` (R8): "When ARMv8.2-EVT is implemented". -/
  haveEvt : Bool
  /-- `NV_V85_STRICT` (R44, D4): the spec's own switch, false by default. -/
  nvV85Strict : Bool
  /-- `REGVAL` (R9, R17): the value this implementation's ID_AA64MMFR2_EL1 holds. -/
  regval : XWord
deriving DecidableEq, Repr

end Sys2Proof
end

