-- ==== Sys2Proof/Machine/Fields.lean ====
section
/-! DEFINITION. The sixteen 4-bit fields of ID_AA64MMFR2_EL1 (R18): where each lies, when it exists,
the values the source defines for it, the values it permits per implementation (R20 to R56), and the
validity predicate that collects them (R57). -/

namespace Sys2Proof

/-- The fields of the register, high bits first, under the source's names (R18). `RES47_44` is the
reserved field of R20. -/
inductive Field where
  | E0PD | EVT | BBM | TTL | RES47_44 | FWB | IDS | AT
  | ST | NV | CCIDX | VARange | IESB | LSM | UAO | CnP
deriving DecidableEq, Repr

/-- All sixteen fields, in the order of R18. -/
def Field.all : List Field :=
  [.E0PD, .EVT, .BBM, .TTL, .RES47_44, .FWB, .IDS, .AT,
   .ST, .NV, .CCIDX, .VARange, .IESB, .LSM, .UAO, .CnP]

/-- The number of a field's least significant bit (R18, R103). -/
def Field.lo : Field → Nat
  | .E0PD => 60
  | .EVT => 56
  | .BBM => 52
  | .TTL => 48
  | .RES47_44 => 44
  | .FWB => 40
  | .IDS => 36
  | .AT => 32
  | .ST => 28
  | .NV => 24
  | .CCIDX => 20
  | .VARange => 16
  | .IESB => 12
  | .LSM => 8
  | .UAO => 4
  | .CnP => 0

/-- `F(v)`: bits `[lo+3:lo]` of a 64-bit value (R11, R18). -/
def Field.get (f : Field) (v : XWord) : Nibble :=
  v.extractLsb' f.lo 4

/-- The 64-bit value made of sixteen fields, high bits first: the concatenation of R103 (a). -/
def Field.concat (g : Field → Nibble) : XWord :=
  g .E0PD ++ g .EVT ++ g .BBM ++ g .TTL ++ g .RES47_44 ++ g .FWB ++ g .IDS ++ g .AT ++
  g .ST ++ g .NV ++ g .CCIDX ++ g .VARange ++ g .IESB ++ g .LSM ++ g .UAO ++ g .CnP

/-- The architecture version that counts: `ARCH_MINOR`, with every value above 5 treated exactly as
5 (R7, D27). -/
def Implementation.version (c : Implementation) : Nat :=
  if c.archMinor ≤ 5 then c.archMinor else 5

/-- The source's condition for a field to exist (R18); "From Armv8.N" is `N ≤ version` (R7). Where it
fails the field is "Reserved, RES0". -/
def Field.present (f : Field) (c : Implementation) : Bool :=
  match f with
  | .E0PD => decide (5 ≤ c.version)
  | .EVT => c.haveEvt
  | .RES47_44 => false
  | .BBM | .TTL | .FWB | .IDS | .AT | .ST => decide (4 ≤ c.version)
  | .NV | .CCIDX => decide (3 ≤ c.version)
  | .VARange | .IESB | .LSM | .UAO | .CnP => decide (2 ≤ c.version)

/-- The values a field's table lists with a meaning on this implementation (R22, R24, R27, R29, R32,
R35, R37, R39, R42, R45, R47, R49, R51, R53, R55); where the field does not exist, the one value a
RES0 field reads as (R14). Every other value is reserved. -/
def Field.definedValues (f : Field) (c : Implementation) : List Nibble :=
  if f.present c then
    match f with
    | .EVT | .BBM => [0#4, 1#4, 2#4]
    | .NV => if 4 ≤ c.version then [0#4, 1#4, 2#4] else [0#4, 1#4]
    | _ => [0#4, 1#4]
  else [0#4]

/-- The values an implementation may hold in a field: R20, R23, R25, R28, R31, R33, R36, R38, R40,
R43, R44, R46, R48, R50, R52, R54 and R56, one per field. -/
def Field.permitted (f : Field) (c : Implementation) : List Nibble :=
  let m := c.version
  match f with
  | .E0PD => if 5 ≤ m then [1#4] else [0#4]
  | .EVT =>
    if !c.haveEvt then [0#4]
    else if m = 0 then [0#4]
    else if m ≤ 4 then [0#4, 1#4, 2#4]
    else if c.haveEl2 then [2#4]
    else [0#4]
  | .BBM => if 4 ≤ m then [0#4, 1#4, 2#4] else [0#4]
  | .TTL => if 4 ≤ m then [1#4] else [0#4]
  | .RES47_44 => [0#4]
  | .FWB => if m < 4 then [0#4] else if c.haveSecEl2 then [1#4] else [0#4, 1#4]
  | .IDS => if 4 ≤ m then [1#4] else [0#4]
  | .AT => if 4 ≤ m then [1#4] else [0#4]
  | .ST => if m < 4 then [0#4] else if c.haveSecEl2 then [1#4] else [0#4, 1#4]
  | .NV =>
    if m ≤ 2 then [0#4]
    else if m = 3 then (if c.haveEl2 then [1#4] else [0#4])
    else if m = 4 then (if c.haveEl2 then [2#4] else [0#4])
    else if c.nvV85Strict then (if c.haveEl2 then [2#4] else [0#4])
    else [0#4, 1#4, 2#4]
  | .CCIDX => if 3 ≤ m then [0#4, 1#4] else [0#4]
  | .VARange => if 2 ≤ m then [0#4, 1#4] else [0#4]
  | .IESB => if 2 ≤ m then [0#4, 1#4] else [0#4]
  | .LSM => if 2 ≤ m then [0#4, 1#4] else [0#4]
  | .UAO => if 2 ≤ m then [1#4] else [0#4]
  | .CnP => if 2 ≤ m then [1#4] else [0#4]

/-- The field of this implementation's register holds a value its rule permits. -/
def Implementation.fieldOk (c : Implementation) (f : Field) : Bool :=
  (f.permitted c).contains (f.get c.regval)

/-- The line of R57 marked "forces evt": from Armv8.5 with EL2 the EVT field is 0b0010 (R26). -/
def Implementation.evtForced (c : Implementation) : Bool :=
  !(decide (5 ≤ c.version) && c.haveEl2) || Field.EVT.get c.regval == 2

/-- `Valid` (R57): every field holds a permitted value, and the EVT line of R26. A configuration
that does not satisfy it is given no meaning (R9). -/
def Implementation.valid (c : Implementation) : Bool :=
  Field.all.all c.fieldOk && c.evtForced

/-- The register value with the FWB field replaced, every other bit kept: FWB is the one field the
architecture does not promise to be the same after every reset (R34, R73). -/
def Implementation.withFwb (c : Implementation) (fwb : Nibble) : Implementation :=
  { c with regval := Field.concat fun f => if f = .FWB then fwb else f.get c.regval }

end Sys2Proof
end

