-- ==== Sys2Proof/Syntax.lean ====
section
/-! DEFINITION. The two instructions of spec/opcode_table.json and their one operand, plus the
five-number name of a System register (R75). -/

namespace Sys2Proof

/-- The operand `<Xt>` (R92): `X0` to `X30`, or register number 31, which names the zero register
`XZR` and not a stack pointer (R68). -/
inductive Reg where
  | x (n : Fin 31)
  | xzr
deriving DecidableEq, Repr

/-- A location of the System register space (R75): the five numbers that name a register there, at
the widths of the source's encoding table. -/
structure SysRegName where
  op0 : BitVec 2
  op1 : BitVec 3
  CRn : BitVec 4
  CRm : BitVec 4
  op2 : BitVec 3
deriving DecidableEq, Repr

/-- The rows of spec/opcode_table.json. -/
inductive Instr where
  /-- `MRS <Xt>, ID_AA64MMFR2_EL1` (R100). -/
  | mrsIdAa64mmfr2 (rt : Reg)
  /-- `MSR ID_AA64MMFR2_EL1, <Xt>` (R96): not an accessor of the register. -/
  | msrIdAa64mmfr2 (rt : Reg)
deriving DecidableEq, Repr

end Sys2Proof
end

