-- ==== Sys2Proof/Machine/State.lean ====
section
/-! DEFINITION. The state of one PE, as 10_state.md sections 1 and 5 give it, the two exceptions it can
raise, the grounds on which the model refuses, and the state after reset. There is no memory, no
condition flag and no exception register: the spec gives the machine none (R70 to R72, R78). -/

namespace Sys2Proof.Machine

/-- The four Exception levels (R61, R118). -/
inductive ExceptionLevel where
  | EL0 | EL1 | EL2 | EL3
deriving DecidableEq, Repr

/-- The state of a PE (R16, R61 to R69). `impl` holds the parameters of R7 to R9, which no step
changes. The five inputs of R61 to R65 take any combination of values (R66). -/
structure State where
  /-- The implementation: its version, its options, and `REGVAL`, the value of ID_AA64MMFR2_EL1 (R17). -/
  impl : Implementation
  /-- The general registers `x[0]` to `x[30]` (R67); register number 31 is no register (R68). -/
  x : Vector XWord 31
  /-- The program counter: the address of the instruction being executed (R69). -/
  pc : XWord
  /-- `PSTATE.EL` (R61). -/
  el : ExceptionLevel
  /-- `HCR_EL2.TGE` (R62). -/
  hcrTge : Bool
  /-- `HCR_EL2.TID3` (R63). -/
  hcrTid3 : Bool
  /-- `EL2Enabled()` (R64). -/
  el2Enabled : Bool
  /-- `ELUsingAArch32(EL2)` (R65). -/
  el2UsingAArch32 : Bool
  /-- The words of the run that are not yet executed, the next one first (R94, R128). -/
  program : List InstrWord
deriving DecidableEq, Repr

/-- The exceptions of R105. Each ends the run (R113), carrying the record the spec gives it (the
target Exception level and the exception class `ESR_ELx.EC`, R71) and the state it stopped in, which
R113 calls a fault state. -/
inductive Fault where
  /-- `Trap(target, ec)` (R107). Raised by `MRS <Xt>, ID_AA64MMFR2_EL1`, at EL0 with IDS 0b0001 and at
  EL1 under `HCR_EL2.TID3`. Safe: the hardware goes on in a handler the spec does not describe, and
  nothing is claimed of what follows. -/
  | systemAccessTrap (target : ExceptionLevel) (ec : Nat) (stopped : State)
  /-- `Undef(target)` (R106), reported with `ESR_ELx.EC == 0x0`. Raised by the read at EL0 with IDS
  0b0000 and by the write form `MSR ID_AA64MMFR2_EL1, <Xt>` at every level (R96). Safe: as above. -/
  | undefined (target : ExceptionLevel) (ec : Nat) (stopped : State)
deriving DecidableEq, Repr

/-- The grounds on which the model gives a step no meaning. -/
inductive Refusal where
  /-- An instruction of the opcode table without a meaning. Raised by no arm: every row has one.
  Safe: nothing is claimed of it. -/
  | notModelled (mnemonic : String)
  /-- A word outside the spec (R95). Raised by the fetch of step. Safe: nothing is claimed of it. -/
  | notInScope (word : InstrWord)
  /-- The register value is not one this implementation may hold (R9, R57). Raised by the fetch of
  step. Safe: such an implementation has no meaning. -/
  | invalidConfiguration
  /-- The pc is not 4-byte aligned (R80). Raised by the fetch of step. Safe: nothing is claimed. -/
  | misalignedPc
  /-- Every word of the run has been executed: the state is final (R128 (a)). Raised by the fetch of
  step. Safe: a real PE goes on, and nothing is claimed of what it does. -/
  | programEnded
deriving DecidableEq, Repr

/-- The implementation of `State.reset`. DESIGN CHOICE (notes/assumptions/1.md): Armv8.5 with every
option the spec names, and of its valid register values the smallest, every open field at its least
permitted value (95_test_vectors.md section 2.2, the row 5 T T T). -/
def resetImplementation : Implementation where
  archMinor := 5
  haveEl2 := true
  haveSecEl2 := true
  haveEvt := true
  nvV85Strict := false
  regval := 0x1201011110000011

/-- The machine right after reset. The spec gives a reset value to nothing but the register, which
holds `REGVAL` (R73, R74); every other value is named in notes/assumptions/2.md and 3.md. No program
is placed (notes/assumptions/6.md). -/
def State.reset : State where
  impl := resetImplementation
  x := Vector.replicate 31 0
  pc := 0
  el := .EL3
  hcrTge := false
  hcrTid3 := false
  el2Enabled := false
  el2UsingAArch32 := false
  program := []

end Sys2Proof.Machine
end

