-- ==== Sys2Proof/Machine/Access.lean ====
section
/-! DEFINITION. The access rule: what a read of ID_AA64MMFR2_EL1 comes to, as the pure function of six
inputs that R101 asks for, and where an UNDEFINED instruction is taken (R109). -/

namespace Sys2Proof.Machine

/-- What an access comes to (R101). -/
inductive Access where
  /-- The register's value is returned. -/
  | value
  /-- `Trap(target, ec)`. -/
  | trap (target : ExceptionLevel) (ec : Nat)
  /-- `Undef(target)`. -/
  | undef (target : ExceptionLevel)
deriving DecidableEq, Repr

/-- The exception class of a System access trap: the second argument of every
`AArch64.SystemAccessTrap` call of the accessor (R107). -/
def ecSystemAccess : Nat := 0x18

/-- The exception class of an Undefined Instruction exception (R106). -/
def ecUndefined : Nat := 0x0

/-- The Exception level an UNDEFINED instruction is taken to (R109): from EL0, EL2 when EL2 is enabled
and `HCR_EL2.TGE` is set, else EL1; from any other level, that level. -/
def undefTarget (el : ExceptionLevel) (el2en tge : Bool) : ExceptionLevel :=
  match el with
  | .EL0 => if el2en && tge then .EL2 else .EL1
  | .EL1 => .EL1
  | .EL2 => .EL2
  | .EL3 => .EL3

/-- `Access` (R101). -/
def access (el : ExceptionLevel) (ids : Nibble) (el2en el2a32 tge tid3 : Bool) : Access :=
  let el2Traps := el2en && !el2a32
  match el with
  | .EL0 =>
    if ids = 1#4 then
      if el2Traps && tge then .trap .EL2 ecSystemAccess else .trap .EL1 ecSystemAccess
    else .undef (undefTarget .EL0 el2en tge)
  | .EL1 => if el2Traps && tid3 then .trap .EL2 ecSystemAccess else .value
  | .EL2 => .value
  | .EL3 => .value

end Sys2Proof.Machine
end

