-- ==== Sys2Proof/Machine/Operands.lean ====
section
/-! DEFINITION. The one operand form of this hardware: the destination `<Xt>` (R92). There is no source
operand and no immediate (R93), and no flag to compute (R70). -/

namespace Sys2Proof.Machine

/-- `x[t] <- v` (R13): register number 31 discards the value (R68). -/
def writeX (rt : Reg) (v : XWord) (s : State) : State :=
  match rt with
  | .x n => { s with x := s.x.set n.val v n.isLt }
  | .xzr => s

/-- The value general register `n` holds. No instruction in scope reads one (R67). -/
def readX (n : Fin 31) (s : State) : XWord :=
  s.x[n.val]

end Sys2Proof.Machine
end

