-- ==== Sys2Proof/Machine/Ops.lean ====
section
/-! DEFINITION. The operations the meanings share: the read of the register, the access rule on a
state, the advance of the pc, and raising an exception, which in this model ends the run with its
record (R113). There is no return from an exception (R115). -/

namespace Sys2Proof.Machine

/-- What a step answers. -/
abbrev Result := Host.Outcome State Fault Refusal

/-- The value a read of ID_AA64MMFR2_EL1 returns when it is not trapped: `REGVAL`, in every
architecture version (R21). -/
def readIdRegister (s : State) : XWord :=
  s.impl.regval

/-- `IsFeatureImplemented("ARMv8.4-IDST")`, which the accessor tests, is this field being 0b0001
(R59). -/
def idsField (s : State) : Nibble :=
  Field.IDS.get s.impl.regval

/-- The access rule (R101) on the inputs a state holds (R61 to R65). -/
def accessOf (s : State) : Access :=
  access s.el (idsField s) s.el2Enabled s.el2UsingAArch32 s.hcrTge s.hcrTid3

/-- `pc <- pc + 4`, modulo 2^64 (R69). -/
def advancePc (s : State) : State :=
  { s with pc := s.pc + 4#64 }

/-- `raise SystemAccessTrap(target, ec)` (R107, R113): the run ends with the record; the state is the
one before the instruction. -/
def raiseSystemAccessTrap (target : ExceptionLevel) (ec : Nat) (s : State) : Result :=
  .fault (.systemAccessTrap target ec s)

/-- `raise Undefined(target)` (R106, R113): the run ends with the record, whose class is `0x0`; the
state is the one before the instruction. -/
def raiseUndefined (target : ExceptionLevel) (s : State) : Result :=
  .fault (.undefined target ecUndefined s)

/-- The Exception level an UNDEFINED instruction is taken to from this state (R109). -/
def undefTargetOf (s : State) : ExceptionLevel :=
  undefTarget s.el s.el2Enabled s.hcrTge

/-- A read through the access rule (R100): where it returns a value, `x[t]` gets it and the pc
advances; where it raises an exception, nothing is written. -/
def readThroughAccess (rt : Reg) (s : State) : Result :=
  match accessOf s with
  | .value => .next (advancePc (writeX rt (readIdRegister s) s))
  | .trap target ec => raiseSystemAccessTrap target ec s
  | .undef target => raiseUndefined target s

end Sys2Proof.Machine
end

