-- ==== Sys2Proof/Machine/SystemMove.lean ====
section
/-! DEFINITION. The meanings of the two System register moves of spec/opcode_table.json. -/

namespace Sys2Proof.Machine

/-- `MRS <Xt>, ID_AA64MMFR2_EL1` (R100). -/
def execMrsIdAa64mmfr2 (rt : Reg) (s : State) : Result :=
  readThroughAccess rt s

/-- `MSR ID_AA64MMFR2_EL1, <Xt>` (R96): UNDEFINED at every Exception level, whatever `<Xt>` is;
nothing is written and no register is read. -/
def execMsrIdAa64mmfr2 (_rt : Reg) (s : State) : Result :=
  raiseUndefined (undefTargetOf s) s

end Sys2Proof.Machine
end

