-- ==== Sys2Proof/Machine/Dispatch.lean ====
section
/-! DEFINITION. The dispatch of an instruction to its meaning, one arm per row of the opcode table. -/

namespace Sys2Proof.Machine

def exec (i : Instr) (s : State) : Host.Outcome State Fault Refusal :=
  match i with
  | .mrsIdAa64mmfr2 rt => Sys2Proof.Machine.execMrsIdAa64mmfr2 rt s
  | .msrIdAa64mmfr2 rt => Sys2Proof.Machine.execMsrIdAa64mmfr2 rt s

end Sys2Proof.Machine
end

