-- ==== Sys2Proof/Machine/SysRegSpace.lean ====
section
/-! DEFINITION. The System register space in AArch64 and the feature ID space inside it (R75 to R77). -/

namespace Sys2Proof

/-- The place of ID_AA64MMFR2_EL1 in the System register space (R77, R89): (3, 0, 0, 7, 2). -/
def SysRegName.idAa64mmfr2El1 : SysRegName :=
  { op0 := 0b11, op1 := 0b000, CRn := 0b0000, CRm := 0b0111, op2 := 0b010 }

/-- `InFeatureIDSpace` (R76); the conjunct `op2 <= 7` of the source always holds of three bits. -/
def SysRegName.inFeatureIdSpace (n : SysRegName) : Bool :=
  n.op0 == 3#2 && (n.op1 == 0#3 || n.op1 == 1#3 || n.op1 == 3#3) &&
  n.CRn == 0#4 && decide (n.CRm.toNat ≤ 7) && decide (n.op2.toNat ≤ 7)

end Sys2Proof
end

