-- ==== Sys2Proof/Decode.lean ====
section
/-! DEFINITION. The decoder of R94, total over all 32-bit words and over all byte lists, and after it
the encoder, written from the layout of R90. -/

namespace Sys2Proof

/-- The register that the 5-bit field `Rt` names (R92): 0 to 30 are `x[0]` to `x[30]`, 31 is `XZR`. -/
def Reg.ofRt (f : BitVec 5) : Reg :=
  if h : f.toNat < 31 then .x ⟨f.toNat, h⟩ else .xzr

/-- The verdict of the decoder (R94). -/
inductive Decoded where
  /-- The word is one of the two in scope. -/
  | instr (i : Instr)
  /-- Every other word: outside the spec, refused under this name (R95). -/
  | notInScope (w : InstrWord)
deriving DecidableEq, Repr

/-- `Decode(w)` (R94), with the second pattern read as the write form, as R96, 95_test_vectors.md
section 2.4 and the opcode table have it. DEDUCED: notes/assumptions/9.md. -/
def decode (w : InstrWord) : Decoded :=
  if w &&& 0xFFFFFFE0#32 = 0xD5380740#32 then
    .instr (.mrsIdAa64mmfr2 (Reg.ofRt (w.extractLsb' 0 5)))
  else if w &&& 0xFFFFFFE0#32 = 0xD5180740#32 then
    .instr (.msrIdAa64mmfr2 (Reg.ofRt (w.extractLsb' 0 5)))
  else .notInScope w

/-- The word made of four bytes, lowest address first: byte 0 is bits [7:0] (R79). -/
def wordOfBytes (b0 b1 b2 b3 : Byte) : InstrWord :=
  b3 ++ b2 ++ b1 ++ b0

/-- The four bytes of a word, lowest address first (R79). -/
def bytesOfWord (w : InstrWord) : List Byte :=
  [w.extractLsb' 0 8, w.extractLsb' 8 8, w.extractLsb' 16 8, w.extractLsb' 24 8]

/-- The verdict of the decoder over bytes. -/
inductive DecodedBytes where
  /-- The first four bytes are an instruction in scope; `rest` follows it. -/
  | instr (i : Instr) (rest : List Byte)
  /-- The first four bytes are a word outside the spec (R95). -/
  | notInScope (w : InstrWord) (rest : List Byte)
  /-- Fewer than the four bytes every A64 instruction has (R91). -/
  | truncated (bytes : List Byte)
deriving DecidableEq, Repr

/-- The decoder over bytes: one word of four bytes (R79, R91), then the rest. -/
def decodeBytes : List Byte → DecodedBytes
  | b0 :: b1 :: b2 :: b3 :: rest =>
    match decode (wordOfBytes b0 b1 b2 b3) with
    | .instr i => .instr i rest
    | .notInScope w => .notInScope w rest
  | bytes => .truncated bytes

/-! The encoder. -/

/-- The number `t` of `<Xt>` as the 5-bit field `Rt` (R90, R92). -/
def Reg.toRt : Reg → BitVec 5
  | .x n => BitVec.ofNat 5 n.val
  | .xzr => 31

/-- The System register move word of R90, most significant bits first: the fixed bits, `L` (1 reads,
0 writes), the fixed high bit of `op0`, `o0`, `op1`, `CRn`, `CRm`, `op2`, `Rt`. -/
def sysMoveWord (l : BitVec 1) (n : SysRegName) (rt : BitVec 5) : InstrWord :=
  0b1101010100#10 ++ l ++ 1#1 ++ n.op0.extractLsb' 0 1 ++ n.op1 ++ n.CRn ++ n.CRm ++ n.op2 ++ rt

/-- The word of an instruction: R90 with the register's name of R89, `L` = 1 for the read and
`L` = 0 for the write form (R96). -/
def encode : Instr → InstrWord
  | .mrsIdAa64mmfr2 rt => sysMoveWord 1 .idAa64mmfr2El1 rt.toRt
  | .msrIdAa64mmfr2 rt => sysMoveWord 0 .idAa64mmfr2El1 rt.toRt

/-- The bytes of an instruction, lowest address first (R79). -/
def encodeBytes (i : Instr) : List Byte :=
  bytesOfWord (encode i)

/-- The fields of a System register move word (R90). -/
structure SysMove where
  l : BitVec 1
  name : SysRegName
  rt : BitVec 5
deriving DecidableEq, Repr

/-- The fields of a word that has the fixed bits of R90 (bits [31:22] and bit [20]), else none. -/
def sysMoveOf (w : InstrWord) : Option SysMove :=
  if w.extractLsb' 22 10 = 0b1101010100#10 ∧ w.extractLsb' 20 1 = 1#1 then
    some
      { l := w.extractLsb' 21 1
        name :=
          { op0 := 1#1 ++ w.extractLsb' 19 1
            op1 := w.extractLsb' 16 3
            CRn := w.extractLsb' 12 4
            CRm := w.extractLsb' 8 4
            op2 := w.extractLsb' 5 3 }
        rt := w.extractLsb' 0 5 }
  else none

/-! The host's question about one row of the opcode table. -/

/-- The instruction word whose low `nbits` bits are those of `w` and whose other bits are 0. -/
def tableWord (nbits w : Nat) : InstrWord :=
  BitVec.ofNat 32 (w % 2 ^ nbits)

/-- The instruction the decoder reads from a row's bits, numbered with bit 0 the least significant bit
of the word: laid out as four bytes, then decoded. -/
def decodeTableWord (nbits w : Nat) : Option Instr :=
  match decodeBytes (bytesOfWord (tableWord nbits w)) with
  | .instr i _ => some i
  | .notInScope _ _ => none
  | .truncated _ => none

end Sys2Proof
end

