-- ==== Sys2Proof/Machine/Fetch.lean ====
section
/-! DEFINITION. Taking the next instruction of a run. The program is a list of words given to the
machine, not a memory it reads (R78, R94, D26), executed in order (R128). -/

namespace Sys2Proof.Machine

/-- The pc is 4-byte aligned (R69, R80). -/
abbrev pcAligned (s : State) : Prop := s.pc.toNat % 4 = 0

/-- What the fetch gives. -/
inductive Fetched where
  | instr (i : Instr)
  | refused (r : Refusal)
deriving DecidableEq, Repr

/-- The next instruction. The premises of a run come first: the configuration is valid (R9), the pc is
4-byte aligned (R80); then the next word is decoded (R94), and one outside the spec is refused by
name (R95). With no word left the run has ended (R128 (a)). -/
def fetch (s : State) : Fetched :=
  if s.impl.valid = false then .refused .invalidConfiguration
  else if ¬ pcAligned s then .refused .misalignedPc
  else
    match s.program with
    | [] => .refused .programEnded
    | w :: _ =>
      match decode w with
      | .instr i => .instr i
      | .notInScope w => .refused (.notInScope w)

/-- The word just executed is no longer among those to execute (R128). -/
def retire (s : State) : State :=
  { s with program := s.program.tail }

/-- `s` with the word `w` as the one the next step takes; the words after it are kept. -/
def placeWord (w : InstrWord) (s : State) : State :=
  { s with program := w :: s.program.tail }

end Sys2Proof.Machine
end

