-- ==== Sys2Proof/Machine/Assembly.lean ====
section
/-! DEFINITION. The assembler line of each instruction (R98), and the generic name of a System register
that an assembler accepts for it (R99). -/

namespace Sys2Proof

/-- The spelling of `<Xt>`: `X0` to `X30`, or `XZR` (R98). -/
def Reg.spelling : Reg → String
  | .x n => "X" ++ toString n.val
  | .xzr => "XZR"

/-- The assembler line of an instruction (R98); the write form is spelled as the opcode table has it. -/
def Instr.line : Instr → String
  | .mrsIdAa64mmfr2 rt => "MRS " ++ rt.spelling ++ ", ID_AA64MMFR2_EL1"
  | .msrIdAa64mmfr2 rt => "MSR ID_AA64MMFR2_EL1, " ++ rt.spelling

/-- The generic name `S<op0>_<op1>_C<CRn>_C<CRm>_<op2>` of a System register (R99). -/
def SysRegName.genericName (n : SysRegName) : String :=
  "S" ++ toString n.op0.toNat ++ "_" ++ toString n.op1.toNat ++ "_C" ++ toString n.CRn.toNat ++
  "_C" ++ toString n.CRm.toNat ++ "_" ++ toString n.op2.toNat

end Sys2Proof
end

