-- ==== Sys2Proof/Machine/Queries.lean ====
section
/-! DEFINITION. What a value of the register says (R103, R104): the named queries, and the meaning
cells of the field tables as data. Every one is a function of the 64-bit value that a read returns.
Where the value of a field is reserved (R14) the cell says nothing and the answer is `none`. -/

namespace Sys2Proof

/-- The three translation granules that the ST and VARange cells name. -/
inductive Granule where
  | kb4 | kb16 | kb64
deriving DecidableEq, Repr

/-! The named queries of R104. -/

def hasE0PD (v : XWord) : Bool := Field.E0PD.get v == 1#4
def evtLevel (v : XWord) : Nat := (Field.EVT.get v).toNat
def bbmLevel (v : XWord) : Nat := (Field.BBM.get v).toNat
def hasTTL (v : XWord) : Bool := Field.TTL.get v == 1#4
def hasFWB (v : XWord) : Bool := Field.FWB.get v == 1#4
def hasIDST (v : XWord) : Bool := Field.IDS.get v == 1#4
def hasLSE2 (v : XWord) : Bool := Field.AT.get v == 1#4
def hasTTST (v : XWord) : Bool := Field.ST.get v == 1#4

/-- `MaxTxSZ(granule)`: the maximum of `TCR_ELx.(T0SZ,T1SZ)` and `VTCR_EL2.T0SZ` (R39, R104). -/
def maxTxSZ (v : XWord) (g : Granule) : Nat :=
  if Field.ST.get v = 1#4 then (if g = .kb64 then 47 else 48) else 39

def nvLevel (v : XWord) : Nat := (Field.NV.get v).toNat
def hasCCIDX (v : XWord) : Bool := Field.CCIDX.get v == 1#4

/-- `VaBits(granule)`: the virtual address width (R47, R104). -/
def vaBits (v : XWord) (g : Granule) : Nat :=
  if Field.VARange.get v = 1#4 ∧ g = .kb64 then 52 else 48

def hasIESB (v : XWord) : Bool := Field.IESB.get v == 1#4
def hasLSMAOC (v : XWord) : Bool := Field.LSM.get v == 1#4
def hasUAO (v : XWord) : Bool := Field.UAO.get v == 1#4
def hasCnP (v : XWord) : Bool := Field.CnP.get v == 1#4

/-! The meaning cells that say more than "supported" or "not supported". -/

/-- The `HCR_EL2` trap bits that the EVT field reports (R24); what each traps is not in the spec. -/
inductive EvtTrap where
  | TTLBOS | TTLBIS | TOCU | TICAB | TID4
deriving DecidableEq, Repr

/-- Whether a trap is supported, by the EVT cell (R24). DESIGN CHOICE (notes/assumptions/29.md): the
lead sentence speaks only "If EL2 is implemented", and the spec does not say what the cell says without
EL2; the answer here is by the value alone, also where the field does not exist
(notes/assumptions/32.md). -/
def evtTrapSupported (v : XWord) (t : EvtTrap) : Option Bool :=
  if Field.EVT.get v = 0#4 then some false
  else if Field.EVT.get v = 1#4 then some (decide (t = .TOCU ∨ t = .TICAB ∨ t = .TID4))
  else if Field.EVT.get v = 2#4 then some true
  else none

/-- The three labels of the BBM cells; the spec gives them no meaning beyond their names (R27). -/
inductive BbmLabel where
  | level0 | level1 | level2
deriving DecidableEq, Repr

/-- The BBM cell of a value (R27). DESIGN CHOICE (notes/assumptions/32.md): by the value alone, so level
0 also before Armv8.4, where the field does not exist. -/
def bbmLabel (v : XWord) : Option BbmLabel :=
  if Field.BBM.get v = 0#4 then some .level0
  else if Field.BBM.get v = 1#4 then some .level1
  else if Field.BBM.get v = 2#4 then some .level2
  else none

/-- The thirty TLB maintenance instructions by address that the TTL field affects (R30). They are
names only: none is in scope. -/
inductive TlbiByAddress where
  | IPAS2E1 | IPAS2E1IS | IPAS2E1OS | IPAS2LE1 | IPAS2LE1IS | IPAS2LE1OS
  | VAAE1 | VAAE1IS | VAAE1OS | VAALE1 | VAALE1IS | VAALE1OS
  | VAE1 | VAE1IS | VAE1OS | VAE2 | VAE2IS | VAE2OS | VAE3 | VAE3IS | VAE3OS
  | VALE1 | VALE1IS | VALE1OS | VALE2 | VALE2IS | VALE2OS | VALE3 | VALE3IS | VALE3OS
deriving DecidableEq, Repr

/-- What bits [47:44] of the register operand of a TLBI by address are (R29). -/
inductive TlbiOperandBits where
  | res0 | ttlField
deriving DecidableEq, Repr

/-- The TTL cell of a value, for each instruction the field affects (R29, R30). -/
def tlbiOperandBits (v : XWord) (_i : TlbiByAddress) : Option TlbiOperandBits :=
  if Field.TTL.get v = 0#4 then some .res0
  else if Field.TTL.get v = 1#4 then some .ttlField
  else none

/-- What raised an exception on a read of the feature ID space, as the IDS cells tell them apart
(R35). -/
inductive IdReadCause where
  /-- "a trap caused by HCR_EL2.TIDx"; for this register, TID3. -/
  | hcrTid
  /-- "SCTLR_EL1.UCT, or SCTLR_EL2.UCT". -/
  | sctlrUct
  /-- Any other exception. -/
  | other
deriving DecidableEq, Repr

/-- The exception class that the IDS cell says reports an exception on a read of the feature ID space
(R35); `none` where the cell does not say. -/
def idsReportedEc (v : XWord) (cause : IdReadCause) : Option Nat :=
  if Field.IDS.get v = 0#4 then (if cause = .other then some 0x0 else none)
  else if Field.IDS.get v = 1#4 then some 0x18
  else none

/-- The register and the `HCR_EL2` bits that the NV cells name (R42). -/
inductive NvItem where
  | hcrNV | hcrNV1 | hcrAT | hcrNV2 | VNCR_EL2
deriving DecidableEq, Repr

/-- Whether the NV cell of a value lists an item as implemented (R42). DESIGN CHOICE, twice: the answer
is by the value alone, also without EL2, of which the spec does not speak (R41,
notes/assumptions/29.md), and where the field does not exist (notes/assumptions/32.md); and an item the cell does not list, such as NV2 and VNCR_EL2 at 0b0001, is
answered `some false`, which says that it is not listed and not that it is absent
(notes/assumptions/30.md). -/
def nvItemImplemented (v : XWord) (b : NvItem) : Option Bool :=
  if Field.NV.get v = 0#4 then some false
  else if Field.NV.get v = 1#4 then some (decide (b = .hcrNV ∨ b = .hcrNV1 ∨ b = .hcrAT))
  else if Field.NV.get v = 2#4 then some true
  else none

/-- The width in bits of the `CCSIDR_EL1` format, by the CCIDX cell (R45). DESIGN CHOICE
(notes/assumptions/32.md): the answer is by the value alone, so it is 32 also before Armv8.3, where the
field does not exist and the spec gives no cell. -/
def ccsidrFormatBits (v : XWord) : Option Nat :=
  if Field.CCIDX.get v = 0#4 then some 32
  else if Field.CCIDX.get v = 1#4 then some 64
  else none

/-! Feature names (R58). -/

/-- The features the source names (R2, R58). -/
inductive Feature where
  | E0PD | EVT | TTRem | TTL | IDST | LSE | TTST | NV83 | NV84 | CCIDX | LVA | IESB | LSMAOC
  | UAO | TTCNP | SecEL2
deriving DecidableEq, Repr

/-- The ties of R58 between a feature name and the values of a field; ARMv8.4-SecEL2 has no field
here. DESIGN CHOICE (notes/assumptions/31.md): R58 attaches ARMv8.3-CCIDX to its field as a whole and
has ARMv8.2-EVT as its field's presence condition too; here they are tied to 0b0001, the revised
format, and to 0b0010 alone. -/
def Feature.tie : Feature → Option (Field × List Nibble)
  | .E0PD => some (.E0PD, [1#4])
  | .EVT => some (.EVT, [2#4])
  | .TTRem => some (.BBM, [0#4, 1#4, 2#4])
  | .TTL => some (.TTL, [1#4])
  | .IDST => some (.IDS, [1#4])
  | .LSE => some (.AT, [1#4])
  | .TTST => some (.ST, [1#4])
  | .NV83 => some (.NV, [1#4])
  | .NV84 => some (.NV, [2#4])
  | .CCIDX => some (.CCIDX, [1#4])
  | .LVA => some (.VARange, [1#4])
  | .IESB => some (.IESB, [1#4])
  | .LSMAOC => some (.LSM, [1#4])
  | .UAO => some (.UAO, [1#4])
  | .TTCNP => some (.CnP, [1#4])
  | .SecEL2 => none

/-- The functionality that the tie of a feature names is present on this implementation: the tied
field exists and holds one of the tied values (R58). `none` where no field reports it. That an absent
field reports no feature, also where 0b0000 is a tied value, is DEDUCED (notes/assumptions/16.md);
that EL2 is not asked for is a DESIGN CHOICE (notes/assumptions/29.md). -/
def Feature.reported (f : Feature) (c : Implementation) : Option Bool :=
  match f.tie with
  | none => none
  | some (fld, values) =>
    some (fld.present c && values.contains (fld.get c.regval))

/-- `IsFeatureImplemented` of ARMv8.4-IDST (R59). -/
def isIdstImplemented (c : Implementation) : Bool :=
  Field.IDS.get c.regval == 1

end Sys2Proof
end

