-- ==== Sys2Proof/Machine/Run.lean ====
section
/-! DEFINITION. A run (R128): steps taken one after another until a fault or a refusal, and the run of a
state's whole program. -/

namespace Sys2Proof.Machine

/-- `k` steps, stopping at the first exception (R113) or refusal. -/
def runFor : Nat → State → Result
  | 0, s => .next s
  | k + 1, s =>
    match step s with
    | .next t => runFor k t
    | .fault f => .fault f
    | .refused r => .refused r

/-- The run of a launch state's whole program (R128). It ends in a final state (`next`) when every word
has been executed and returned a value, in the fault an instruction raised, or it is refused. -/
def runProgram (s : State) : Result :=
  runFor s.program.length s

end Sys2Proof.Machine
end

