-- ==== Sys2Proof/Machine/System.lean ====
section
/-! DEFINITION. Several PEs (R121): each is an independent copy with its own implementation, its own
registers and its own inputs, and nothing is shared. -/

namespace Sys2Proof.Machine

/-- The PEs of a system with PE number `n` having made one step (R121); `none` where there is no such
PE. An exception or a refusal ends the run of that PE alone and is answered as its outcome. -/
def stepPe (pes : List State) (n : Nat) : Option (Host.Outcome (List State) Fault Refusal) :=
  match pes[n]? with
  | none => none
  | some s =>
    match step s with
    | .next t => some (.next (pes.set n t))
    | .fault f => some (.fault f)
    | .refused r => some (.refused r)

end Sys2Proof.Machine
end

