-- ==== Sys2Proof/WellFormed.lean ====
section
/-! DEFINITION. What must hold of the data a run starts from. An instruction has nothing to check: the
operand type has exactly the 32 values of the Rt field, and all 32 are accepted (R94). What is
checked is the implementation: R9 refuses one whose register value is not valid, by the seventeen
conditions of R57 (one per field and the EVT line of R26), which stand in Machine/Fields.lean. -/

namespace Sys2Proof

/-- An implementation the model gives a meaning (R9, R57). -/
abbrev Implementation.WellFormed (c : Implementation) : Prop := c.valid = true

/-- A System register name that the move word of R90 can carry: the high bit of `op0` is fixed to 1. -/
abbrev SysRegName.WellFormed (n : SysRegName) : Prop := n.op0.msb = true

end Sys2Proof
end

