-- ==== Sys2Proof/Safety.lean ====
section
/-! DEFINITION. The terms claims use: a state from which the model takes steps, the premises of a real
PE, a read that succeeds, a run and its three ends. -/

namespace Sys2Proof

/-- `d` is the implementation `c` after a reset (R73): every field but FWB holds what it held, and FWB
holds any value its rule permits, since the architecture does not promise that two resets give it the
same (R34). -/
def Implementation.AfterReset (c d : Implementation) : Prop :=
  ∃ fwb : Nibble, fwb ∈ Field.FWB.permitted c ∧ d = c.withFwb fwb

end Sys2Proof

namespace Sys2Proof.Machine

/-- A state from which the model gives steps a meaning: the implementation is valid (R9) and the pc is
4-byte aligned (R80). Every step keeps it; reset has it. -/
abbrev State.Launchable (s : State) : Prop := s.impl.WellFormed ∧ pcAligned s

/-- The premises a launch state adds to describe a real PE (R66). No definition of the model rests on
them. -/
abbrev State.DescribesRealPe (s : State) : Prop :=
  (s.el2Enabled = true → s.impl.haveEl2 = true) ∧
  (s.el = .EL2 → s.el2Enabled = true ∧ s.el2UsingAArch32 = false ∧ s.impl.haveEl2 = true)

/-- The read returns a value: the level is EL2 or EL3, or it is EL1 and EL2 does not forbid it (R119). -/
abbrev State.MayRead (s : State) : Prop :=
  s.el = .EL2 ∨ s.el = .EL3 ∨
  (s.el = .EL1 ∧ (s.el2Enabled = false ∨ s.el2UsingAArch32 = true ∨ s.hcrTid3 = false))

/-- The five inputs of R61 to R65 are the same in two states. -/
abbrev State.SameInputs (s t : State) : Prop :=
  s.el = t.el ∧ s.hcrTge = t.hcrTge ∧ s.hcrTid3 = t.hcrTid3 ∧
  s.el2Enabled = t.el2Enabled ∧ s.el2UsingAArch32 = t.el2UsingAArch32

/-- The Exception level a fault is taken to. -/
def Fault.target : Fault → ExceptionLevel
  | .systemAccessTrap target _ _ => target
  | .undefined target _ _ => target

/-- The exception class a fault reports in `ESR_ELx.EC` (R71). -/
def Fault.ec : Fault → Nat
  | .systemAccessTrap _ ec _ => ec
  | .undefined _ ec _ => ec

/-- The fault state (R113). -/
def Fault.stopped : Fault → State
  | .systemAccessTrap _ _ s => s
  | .undefined _ _ s => s

end Sys2Proof.Machine
end

