-- ==== Sys2Proof/Certificates/Slice0/Obligations.lean ====
section
/-! DEFINITION. The statements for the provers. Each docstring names the rule of spec/ it states, or the
section it rests on. A clause that the spec marks as its own decision or inference is named with the
decision (D<n> of 92_eei_decisions.md) or with "derived by the spec". -/

open Sys2Proof Sys2Proof.Machine

/-! Decoding and encoding. -/

/-- Words written out bit by bit from R90 decode to the instruction they stand for, and two words of
another register to none (95_test_vectors.md section 2.4). The word layout is the
spec's decision D10. -/
def Obligations.SampleWordsDecode : Prop :=
  decode 0b11010101001110000000011101000000#32 = .instr (.mrsIdAa64mmfr2 (.x 0)) ∧
  decode 0b11010101001110000000011101011110#32 = .instr (.mrsIdAa64mmfr2 (.x 30)) ∧
  decode 0b11010101001110000000011101011111#32 = .instr (.mrsIdAa64mmfr2 .xzr) ∧
  decode 0b11010101000110000000011101000011#32 = .instr (.msrIdAa64mmfr2 (.x 3)) ∧
  decode 0b11010101001110000000011100100000#32 = .notInScope 0xD5380720#32 ∧
  decode 0b11010101001110010000011101000000#32 = .notInScope 0xD5390740#32

/-- Decoding the word or the bytes of any instruction gives it back, with every operand, and leaves
the bytes after it (30_encoding.md sections 2 and 4; the word layout is the spec's decision D10, the
write form its decision D11). -/
def Obligations.DecodeOfEncode : Prop :=
  ∀ (i : Instr) (rest : List Byte),
    decode (encode i) = .instr i ∧ decodeBytes (encodeBytes i ++ rest) = .instr i rest

/-- A word that decodes to an instruction is that instruction's word: no two words decode alike and
the decoder ignores no bit (30_encoding.md sections 2 and 4; decisions D10 and D11). -/
def Obligations.EncodeOfDecode : Prop :=
  ∀ (w : InstrWord) (i : Instr), decode w = .instr i → encode i = w

/-- The fields of the word of the read, the word as a number, and the match and mask (30_encoding.md
section 2, R90; the layout is the spec's decision D10). -/
def Obligations.ReadWordLayout : Prop :=
  (∀ rt : Reg,
    let w := encode (.mrsIdAa64mmfr2 rt)
    w.extractLsb' 22 10 = 0b1101010100#10 ∧ w.extractLsb' 21 1 = 1#1 ∧
    w.extractLsb' 20 1 = 1#1 ∧ w.extractLsb' 19 1 = 1#1 ∧
    w.extractLsb' 16 3 = 0b000#3 ∧ w.extractLsb' 12 4 = 0b0000#4 ∧
    w.extractLsb' 8 4 = 0b0111#4 ∧ w.extractLsb' 5 3 = 0b010#3 ∧
    w.extractLsb' 0 5 = rt.toRt ∧ w.toNat = 0xD5380740 + rt.toRt.toNat) ∧
  (∀ n : Fin 31, (Reg.x n).toRt.toNat = n.val) ∧ Reg.xzr.toRt.toNat = 31 ∧
  (∀ w : InstrWord,
    w &&& 0xFFFFFFE0#32 = 0xD5380740#32 ↔ ∃ rt, w = encode (.mrsIdAa64mmfr2 rt))

/-- Which words are in scope: the 32 words from 0xD5380740 are the read, the 32 words from 0xD5180740
the write form, each with the register its last five bits name, and every other word is outside the
spec (30_encoding.md section 4, 95_test_vectors.md section 2.4; decisions D10 and D11, and for the
verdict on the write form notes/assumptions/9.md). -/
def Obligations.DecoderVerdicts : Prop :=
  ∀ w : InstrWord,
    (0xD5380740 ≤ w.toNat ∧ w.toNat ≤ 0xD538075F →
      ∃ rt, decode w = .instr (.mrsIdAa64mmfr2 rt) ∧ rt.toRt.toNat = w.toNat - 0xD5380740) ∧
    (0xD5180740 ≤ w.toNat ∧ w.toNat ≤ 0xD518075F →
      ∃ rt, decode w = .instr (.msrIdAa64mmfr2 rt) ∧ rt.toRt.toNat = w.toNat - 0xD5180740) ∧
    (¬ (0xD5380740 ≤ w.toNat ∧ w.toNat ≤ 0xD538075F) ∧
     ¬ (0xD5180740 ≤ w.toNat ∧ w.toNat ≤ 0xD518075F) → decode w = .notInScope w)

/-- The decoder by mask and match accepts exactly the System register moves whose five-number name is
that of ID_AA64MMFR2_EL1 (30_encoding.md sections 1 and 2): L = 1 is the read, L = 0 the write form. The
positions of the fields are the spec's decision D10. -/
def Obligations.DecodedWordNamesTheRegister : Prop :=
  ∀ (w : InstrWord) (rt : Reg),
    (decode w = .instr (.mrsIdAa64mmfr2 rt) ↔
      sysMoveOf w = some { l := 1, name := .idAa64mmfr2El1, rt := rt.toRt }) ∧
    (decode w = .instr (.msrIdAa64mmfr2 rt) ↔
      sysMoveOf w = some { l := 0, name := .idAa64mmfr2El1, rt := rt.toRt })

/-- The System register move layout drops no bit: the fields read from a move word are those it was
made of, for every name the layout can carry (30_encoding.md section 2; decision D10). -/
def Obligations.SysMoveFieldsRoundTrip : Prop :=
  ∀ (l : BitVec 1) (n : SysRegName) (rt : BitVec 5), n.WellFormed →
    sysMoveOf (sysMoveWord l n rt) = some { l := l, name := n, rt := rt }

/-- A word given as four bytes has its bits [7:0] in the byte at the lowest address, and the four
bytes give the word back (20_memory.md section 2; decision D10). -/
def Obligations.WordBytesLittleEndian : Prop :=
  ∀ (b0 b1 b2 b3 : Byte) (w : InstrWord),
    bytesOfWord (wordOfBytes b0 b1 b2 b3) = [b0, b1, b2, b3] ∧
    (wordOfBytes b0 b1 b2 b3).toNat =
      b0.toNat + 256 * b1.toNat + 65536 * b2.toNat + 16777216 * b3.toNat ∧
    wordOfBytes (w.extractLsb' 0 8) (w.extractLsb' 8 8) (w.extractLsb' 16 8)
      (w.extractLsb' 24 8) = w

/-- R76: the feature ID space is op0 3, op1 0, 1 or 3, CRn 0, CRm 0 to 7, op2 0 to 7, and it has 192
names. -/
def Obligations.FeatureIdSpaceNames : Prop :=
  (∀ n : SysRegName, n.inFeatureIdSpace = true ↔
    n.op0.toNat = 3 ∧ (n.op1.toNat = 0 ∨ n.op1.toNat = 1 ∨ n.op1.toNat = 3) ∧
    n.CRn.toNat = 0 ∧ n.CRm.toNat ≤ 7 ∧ n.op2.toNat ≤ 7) ∧
  ∃ names : List SysRegName, names.Nodup ∧ names.length = 192 ∧
    ∀ n, n ∈ names ↔ n.inFeatureIdSpace = true

/-- ID_AA64MMFR2_EL1 is at op0 3, op1 0, CRn 0, CRm 7, op2 2, inside the feature ID space
(20_memory.md section 1; derived by the spec). -/
def Obligations.RegisterNameInFeatureIdSpace : Prop :=
  SysRegName.idAa64mmfr2El1 = { op0 := 3, op1 := 0, CRn := 0, CRm := 7, op2 := 2 } ∧
  SysRegName.idAa64mmfr2El1.inFeatureIdSpace = true

/-! The register's value. -/

/-- R18: where each field lies, and the source's condition for it to exist. -/
def Obligations.FieldLayout : Prop :=
  (∀ v : XWord,
    Field.E0PD.get v = v.extractLsb 63 60 ∧ Field.EVT.get v = v.extractLsb 59 56 ∧
    Field.BBM.get v = v.extractLsb 55 52 ∧ Field.TTL.get v = v.extractLsb 51 48 ∧
    Field.RES47_44.get v = v.extractLsb 47 44 ∧ Field.FWB.get v = v.extractLsb 43 40 ∧
    Field.IDS.get v = v.extractLsb 39 36 ∧ Field.AT.get v = v.extractLsb 35 32 ∧
    Field.ST.get v = v.extractLsb 31 28 ∧ Field.NV.get v = v.extractLsb 27 24 ∧
    Field.CCIDX.get v = v.extractLsb 23 20 ∧ Field.VARange.get v = v.extractLsb 19 16 ∧
    Field.IESB.get v = v.extractLsb 15 12 ∧ Field.LSM.get v = v.extractLsb 11 8 ∧
    Field.UAO.get v = v.extractLsb 7 4 ∧ Field.CnP.get v = v.extractLsb 3 0) ∧
  (∀ c : Implementation,
    (Field.E0PD.present c = true ↔ c.archMinor ≥ 5) ∧
    (Field.EVT.present c = true ↔ c.haveEvt = true) ∧
    Field.RES47_44.present c = false ∧
    (∀ f ∈ [Field.BBM, .TTL, .FWB, .IDS, .AT, .ST], f.present c = true ↔ c.archMinor ≥ 4) ∧
    (∀ f ∈ [Field.NV, .CCIDX], f.present c = true ↔ c.archMinor ≥ 3) ∧
    (∀ f ∈ [Field.VARange, .IESB, .LSM, .UAO, .CnP], f.present c = true ↔ c.archMinor ≥ 2))

/-- `Valid` (10_state.md section 3, R57; derived by the spec from the fields' rules), written out line
by line over bit slices, is the model's validity predicate. The lines it takes from decisions are
those of D3, D4, D5 and D23. -/
def Obligations.ValidIsTheListing : Prop :=
  ∀ c : Implementation,
    let m := min c.archMinor 5
    let v := c.regval
    let el2 := c.haveEl2 = true
    let secel2 := c.haveSecEl2 = true
    let evt := c.haveEvt = true
    let strict := c.nvV85Strict = true
    c.valid = true ↔
      v.extractLsb 47 44 = 0#4 ∧
      (if m ≥ 5 then v.extractLsb 63 60 = 1#4 else v.extractLsb 63 60 = 0#4) ∧
      (if ¬ evt then v.extractLsb 59 56 = 0#4
       else if m = 0 then v.extractLsb 59 56 = 0#4
       else if m ≤ 4 then
         v.extractLsb 59 56 = 0#4 ∨ v.extractLsb 59 56 = 1#4 ∨ v.extractLsb 59 56 = 2#4
       else if el2 then v.extractLsb 59 56 = 2#4
       else v.extractLsb 59 56 = 0#4) ∧
      (m ≥ 5 ∧ el2 → v.extractLsb 59 56 = 2#4) ∧
      (if m ≥ 4 then
         v.extractLsb 55 52 = 0#4 ∨ v.extractLsb 55 52 = 1#4 ∨ v.extractLsb 55 52 = 2#4
       else v.extractLsb 55 52 = 0#4) ∧
      (if m ≥ 4 then v.extractLsb 51 48 = 1#4 else v.extractLsb 51 48 = 0#4) ∧
      (if m < 4 then v.extractLsb 43 40 = 0#4
       else if secel2 then v.extractLsb 43 40 = 1#4
       else v.extractLsb 43 40 = 0#4 ∨ v.extractLsb 43 40 = 1#4) ∧
      (if m ≥ 4 then v.extractLsb 39 36 = 1#4 else v.extractLsb 39 36 = 0#4) ∧
      (if m ≥ 4 then v.extractLsb 35 32 = 1#4 else v.extractLsb 35 32 = 0#4) ∧
      (if m < 4 then v.extractLsb 31 28 = 0#4
       else if secel2 then v.extractLsb 31 28 = 1#4
       else v.extractLsb 31 28 = 0#4 ∨ v.extractLsb 31 28 = 1#4) ∧
      (if m ≤ 2 then v.extractLsb 27 24 = 0#4
       else if m = 3 then
         (if el2 then v.extractLsb 27 24 = 1#4 else v.extractLsb 27 24 = 0#4)
       else if m = 4 then
         (if el2 then v.extractLsb 27 24 = 2#4 else v.extractLsb 27 24 = 0#4)
       else if strict then
         (if el2 then v.extractLsb 27 24 = 2#4 else v.extractLsb 27 24 = 0#4)
       else v.extractLsb 27 24 = 0#4 ∨ v.extractLsb 27 24 = 1#4 ∨ v.extractLsb 27 24 = 2#4) ∧
      (if m ≥ 3 then v.extractLsb 23 20 = 0#4 ∨ v.extractLsb 23 20 = 1#4
       else v.extractLsb 23 20 = 0#4) ∧
      (if m ≥ 2 then v.extractLsb 19 16 = 0#4 ∨ v.extractLsb 19 16 = 1#4
       else v.extractLsb 19 16 = 0#4) ∧
      (if m ≥ 2 then v.extractLsb 15 12 = 0#4 ∨ v.extractLsb 15 12 = 1#4
       else v.extractLsb 15 12 = 0#4) ∧
      (if m ≥ 2 then v.extractLsb 11 8 = 0#4 ∨ v.extractLsb 11 8 = 1#4
       else v.extractLsb 11 8 = 0#4) ∧
      (if m ≥ 2 then v.extractLsb 7 4 = 1#4 else v.extractLsb 7 4 = 0#4) ∧
      (if m ≥ 2 then v.extractLsb 3 0 = 1#4 else v.extractLsb 3 0 = 0#4)

/-- From Armv8.5 with EL2 a valid register has EVT 0b0010, so without ARMv8.2-EVT no register
value is valid; without EL2 the field is 0b0000 whether or not ARMv8.2-EVT is implemented, and both
cases are real (10_state.md section 2, R26; derived by the spec). -/
def Obligations.EvtForcedFromArmv85 : Prop :=
  (∀ c : Implementation, c.archMinor ≥ 5 → c.haveEl2 = true → c.valid = true →
    Field.EVT.get c.regval = 2#4 ∧ c.haveEvt = true) ∧
  (∀ c : Implementation, c.archMinor ≥ 5 → c.haveEl2 = true → c.haveEvt = false →
    ∀ v : XWord, ({ c with regval := v } : Implementation).valid = false) ∧
  (∀ c : Implementation, c.archMinor ≥ 5 → c.haveEl2 = false → c.valid = true →
    Field.EVT.get c.regval = 0#4) ∧
  (∀ evt : Bool, ∃ c : Implementation, c.archMinor ≥ 5 ∧ c.haveEl2 = false ∧ c.haveEvt = evt ∧
    c.valid = true ∧ Field.EVT.get c.regval = 0#4)

/-- ARMv8.4-IDST is implemented when IDS is 0b0001 (decision D6), and on a valid implementation that is
exactly from Armv8.4 (10_state.md section 4, R59; derived by the spec). -/
def Obligations.IdstExactlyFromArmv84 : Prop :=
  ∀ c : Implementation,
    (isIdstImplemented c = true ↔ Field.IDS.get c.regval = 1#4) ∧
    (c.valid = true → (isIdstImplemented c = true ↔ c.archMinor ≥ 4))

/-- A read that is not trapped returns all 64 bits of `REGVAL` in every version; on Armv8.0 that
is zero, and on Armv8.1 it is EVT followed by 56 zero bits, with EVT 0, 1 or 2 when ARMv8.2-EVT is
implemented and 0 when not (10_state.md section 1, R21; decision D3). -/
def Obligations.ReadValueByVersion : Prop :=
  ∀ (s t : State) (n : Fin 31), exec (.mrsIdAa64mmfr2 (.x n)) s = .next t →
    readX n t = s.impl.regval ∧
    (s.impl.valid = true → s.impl.archMinor = 0 → readX n t = 0x0000000000000000#64) ∧
    (s.impl.valid = true → s.impl.archMinor = 1 →
      readX n t = (Field.EVT.get s.impl.regval ++ 0x00000000000000#56).setWidth 64 ∧
      (s.impl.haveEvt = true → (Field.EVT.get s.impl.regval).toNat ≤ 2) ∧
      (s.impl.haveEvt = false → readX n t = 0#64))

/-- A field is a shift and a mask and lies below 16; the sixteen fields of a value concatenate
to it; in a valid register every field is at most 2 (40_mrs_id_aa64mmfr2.md section 2, R103; derived
by the spec). -/
def Obligations.FieldLaws : Prop :=
  (∀ (f : Field) (v : XWord),
    (f.get v).toNat = ((v >>> f.lo) &&& 0xF#64).toNat ∧ (f.get v).toNat < 16) ∧
  Field.all.map Field.lo = [60, 56, 52, 48, 44, 40, 36, 32, 28, 24, 20, 16, 12, 8, 4, 0] ∧
  (∀ v : XWord, Field.concat (fun f => f.get v) = v) ∧
  (∀ (g : Field → Nibble) (f : Field), f.get (Field.concat g) = g f) ∧
  (∀ (c : Implementation) (f : Field), c.valid = true → (f.get c.regval).toNat ≤ 2)

/-- The permitted values of each field, by version and by the options the rules name: R20, R23, R28, R31,
R36, R38, R40, R43 (NV up to Armv8.4), R46, R48, R54 and R56. -/
def Obligations.PermittedValuesByVersion : Prop :=
  ∀ c : Implementation,
    let m := c.archMinor
    Field.RES47_44.permitted c = [0#4] ∧
    Field.E0PD.permitted c = (if m ≥ 5 then [1#4] else [0#4]) ∧
    Field.BBM.permitted c = (if m ≥ 4 then [0#4, 1#4, 2#4] else [0#4]) ∧
    Field.TTL.permitted c = (if m ≥ 4 then [1#4] else [0#4]) ∧
    Field.IDS.permitted c = (if m ≥ 4 then [1#4] else [0#4]) ∧
    Field.AT.permitted c = (if m ≥ 4 then [1#4] else [0#4]) ∧
    Field.ST.permitted c =
      (if m < 4 then [0#4] else if c.haveSecEl2 = true then [1#4] else [0#4, 1#4]) ∧
    (m ≤ 4 → Field.NV.permitted c =
      (if m ≤ 2 then [0#4]
       else if m = 3 then (if c.haveEl2 = true then [1#4] else [0#4])
       else (if c.haveEl2 = true then [2#4] else [0#4]))) ∧
    Field.CCIDX.permitted c = (if m ≥ 3 then [0#4, 1#4] else [0#4]) ∧
    Field.VARange.permitted c = (if m ≥ 2 then [0#4, 1#4] else [0#4]) ∧
    Field.UAO.permitted c = (if m ≥ 2 then [1#4] else [0#4]) ∧
    Field.CnP.permitted c = (if m ≥ 2 then [1#4] else [0#4])

/-- The IDS field exists from Armv8.4 with the values 0b0000 and 0b0001; 0b0000 says class 0x0 of
every exception on a read of the feature ID space but the traps it names, of which it says nothing,
0b0001 says class 0x18 of all of them, and is ARMv8.4-IDST; the feature ID space is as defined there,
this register is in it, and the field is the accessor's test of ARMv8.4-IDST (10_state.md section 2,
R35). The test is the spec's decision D6 (R59); that an absent field has 0b0000 as its one defined
value, and that the cell answers nothing for a cause it does not speak of, is the model's inference:
notes/assumptions/16.md. -/
def Obligations.IdsFieldMeaning : Prop :=
  (∀ c : Implementation,
    Field.IDS.definedValues c = (if c.archMinor ≥ 4 then [0#4, 1#4] else [0#4])) ∧
  (∀ v : XWord, v.extractLsb 39 36 = 0#4 →
    idsReportedEc v .other = some 0x0 ∧ idsReportedEc v .hcrTid = none ∧
    idsReportedEc v .sctlrUct = none) ∧
  (∀ (v : XWord) (cause : IdReadCause), v.extractLsb 39 36 = 1#4 →
    idsReportedEc v cause = some 0x18) ∧
  Feature.IDST.tie = some (.IDS, [1#4]) ∧
  (∀ n : SysRegName, n.inFeatureIdSpace = true ↔
    n.op0.toNat = 3 ∧ n.op1.toNat ∈ [0, 1, 3] ∧ n.CRn.toNat = 0 ∧ n.CRm.toNat ≤ 7 ∧
    n.op2.toNat ≤ 7) ∧
  SysRegName.idAa64mmfr2El1.inFeatureIdSpace = true ∧
  (∀ c : Implementation, isIdstImplemented c = true ↔ c.regval.extractLsb 39 36 = 1#4)

/-- The values of NV, what each lists as implemented, the versions in which it is defined, and the
features that the values 0b0001 and 0b0010 identify (10_state.md section 2, R42). Model's choices: the
cell is answered as a list, `some false` for an item it does not list, all five at 0b0000
(notes/assumptions/30.md); the answer asks neither for EL2 (29.md) nor for the field to exist (32.md);
ARMv8.3-NV is tied to 0b0001 alone (31.md). -/
def Obligations.NvFieldMeaning : Prop :=
  (∀ c : Implementation,
    (c.archMinor ≥ 4 → Field.NV.definedValues c = [0#4, 1#4, 2#4]) ∧
    (c.archMinor = 3 → Field.NV.definedValues c = [0#4, 1#4])) ∧
  (∀ (v : XWord) (b : NvItem),
    (v.extractLsb 27 24 = 0#4 → nvItemImplemented v b = some false) ∧
    (v.extractLsb 27 24 = 1#4 →
      (nvItemImplemented v b = some true ↔ b ∈ [NvItem.hcrNV, .hcrNV1, .hcrAT])) ∧
    (v.extractLsb 27 24 = 2#4 →
      (nvItemImplemented v b = some true ↔
        b ∈ [NvItem.VNCR_EL2, .hcrAT, .hcrNV, .hcrNV1, .hcrNV2]))) ∧
  Feature.NV83.tie = some (.NV, [1#4]) ∧ Feature.NV84.tie = some (.NV, [2#4])

/-- Every value a rule permits in a field is one the field's table defines, and a valid register holds
a permitted value in every field, so no reserved one (10_state.md sections 2 and 3,
93_implementation_defined.md U2; decision D2). That a field which does not exist has 0b0000 as its one
defined value is the model's inference: notes/assumptions/16.md. -/
def Obligations.PermittedValuesAreDefined : Prop :=
  ∀ (c : Implementation) (f : Field),
    (∀ v ∈ f.permitted c, v ∈ f.definedValues c) ∧
    (c.valid = true → f.get c.regval ∈ f.permitted c ∧ f.get c.regval ∈ f.definedValues c)

/-- Every value a rule permits in a field is held by some valid register of the implementation, as
soon as it has a valid register at all: the fields are independent (10_state.md section 3). -/
def Obligations.PermittedValuesAreHeld : Prop :=
  ∀ (c : Implementation) (f : Field) (v : Nibble), c.valid = true → v ∈ f.permitted c →
    ∃ r : XWord, ({ c with regval := r } : Implementation).valid = true ∧ f.get r = v ∧
      ∀ g : Field, g ≠ f → g.get r = g.get c.regval

/-- The named queries of R104 are comparisons of bit slices of the value (40_mrs_id_aa64mmfr2.md section
2; derived by the spec). -/
def Obligations.NamedQueries : Prop :=
  ∀ (v : XWord) (g : Granule),
    (hasE0PD v = true ↔ v.extractLsb 63 60 = 1#4) ∧
    evtLevel v = (v.extractLsb 59 56).toNat ∧
    bbmLevel v = (v.extractLsb 55 52).toNat ∧
    (hasTTL v = true ↔ v.extractLsb 51 48 = 1#4) ∧
    (hasFWB v = true ↔ v.extractLsb 43 40 = 1#4) ∧
    (hasIDST v = true ↔ v.extractLsb 39 36 = 1#4) ∧
    (hasLSE2 v = true ↔ v.extractLsb 35 32 = 1#4) ∧
    (hasTTST v = true ↔ v.extractLsb 31 28 = 1#4) ∧
    maxTxSZ v g =
      (if v.extractLsb 31 28 = 1#4 then (if g = .kb64 then 47 else 48) else 39) ∧
    nvLevel v = (v.extractLsb 27 24).toNat ∧
    (hasCCIDX v = true ↔ v.extractLsb 23 20 = 1#4) ∧
    vaBits v g = (if v.extractLsb 19 16 = 1#4 ∧ g = .kb64 then 52 else 48) ∧
    (hasIESB v = true ↔ v.extractLsb 15 12 = 1#4) ∧
    (hasLSMAOC v = true ↔ v.extractLsb 11 8 = 1#4) ∧
    (hasUAO v = true ↔ v.extractLsb 7 4 = 1#4) ∧
    (hasCnP v = true ↔ v.extractLsb 3 0 = 1#4)

/-- Seven features, each reported exactly from one version on: E0PD from Armv8.5, TTRem, TTL, IDST and
LSE from Armv8.4, UAO and TTCNP from Armv8.2 (10_state.md sections 2 and 4; decision D6). The TTRem
clause rests on the model's inference that a field which does not exist reports no feature, although
0b0000 is one of its tied values: notes/assumptions/16.md. -/
def Obligations.MandatoryFeaturesByVersion : Prop :=
  ∀ c : Implementation, c.valid = true →
    (Feature.E0PD.reported c = some true ↔ c.archMinor ≥ 5) ∧
    (∀ f ∈ [Feature.TTRem, .TTL, .IDST, .LSE], f.reported c = some true ↔ c.archMinor ≥ 4) ∧
    (∀ f ∈ [Feature.UAO, .TTCNP], f.reported c = some true ↔ c.archMinor ≥ 2)

/-- A reset leaves a valid implementation valid and every field but FWB as it was, and FWB in its
permitted set (10_state.md section 6; decision D7). -/
def Obligations.ResetChangesAtMostFwb : Prop :=
  ∀ c d : Implementation, c.valid = true → c.AfterReset d →
    d.valid = true ∧ Field.FWB.get d.regval ∈ Field.FWB.permitted c ∧
    (∀ f : Field, f ≠ .FWB → f.get d.regval = f.get c.regval) ∧
    d.archMinor = c.archMinor ∧ d.haveEl2 = c.haveEl2 ∧ d.haveSecEl2 = c.haveSecEl2 ∧
    d.haveEvt = c.haveEvt

/-! The read. -/

/-- The access rule (40_mrs_id_aa64mmfr2.md section 1, R101; derived by the spec): the outcomes, each with the condition
under which it comes, over all values of the six inputs, and no target but EL1 and EL2. The target of an
UNDEFINED is the spec's decision D13. -/
def Obligations.AccessOutcomes : Prop :=
  ∀ (el : ExceptionLevel) (ids : Nibble) (el2en el2a32 tge tid3 : Bool),
    let g := el2en = true ∧ el2a32 = false
    let o := access el ids el2en el2a32 tge tid3
    (o = .value ↔ el = .EL3 ∨ el = .EL2 ∨ (el = .EL1 ∧ ¬ (g ∧ tid3 = true))) ∧
    (o = .trap .EL2 0x18 ↔
      (el = .EL0 ∧ ids = 1#4 ∧ g ∧ tge = true) ∨ (el = .EL1 ∧ g ∧ tid3 = true)) ∧
    (o = .trap .EL1 0x18 ↔ el = .EL0 ∧ ids = 1#4 ∧ ¬ (g ∧ tge = true)) ∧
    (o = .undef .EL2 ↔ el = .EL0 ∧ ids ≠ 1#4 ∧ el2en = true ∧ tge = true) ∧
    (o = .undef .EL1 ↔ el = .EL0 ∧ ids ≠ 1#4 ∧ ¬ (el2en = true ∧ tge = true)) ∧
    (o = .value ∨ o = .trap .EL2 0x18 ∨ o = .trap .EL1 0x18 ∨ o = .undef .EL2 ∨ o = .undef .EL1)

/-- The word of the instruction, and its listing as an `if` chain over the state, with the state it
leaves written out (40_mrs_id_aa64mmfr2.md section 1, R100). The IDS test, the write of `x[t]`, the
advance of the pc, the record of the exception and the target of an UNDEFINED are the spec's
decisions D6, D8, D9, D12 and D13. -/
def Obligations.MrsFollowsTheListing : Prop :=
  (∀ rt : Reg, (encode (.mrsIdAa64mmfr2 rt)).toNat = 0xD5380740 + rt.toRt.toNat) ∧
  ∀ (rt : Reg) (s : State),
    let el2Traps := s.el2Enabled = true ∧ s.el2UsingAArch32 = false
    let returned : State :=
      { s with
        x := match rt with
          | .x n => s.x.set n.val s.impl.regval n.isLt
          | .xzr => s.x
        pc := s.pc + 4#64 }
    exec (.mrsIdAa64mmfr2 rt) s =
      if s.el = .EL0 then
        if Field.IDS.get s.impl.regval = 1#4 then
          if el2Traps ∧ s.hcrTge = true then .fault (.systemAccessTrap .EL2 0x18 s)
          else .fault (.systemAccessTrap .EL1 0x18 s)
        else if s.el2Enabled = true ∧ s.hcrTge = true then .fault (.undefined .EL2 0x0 s)
        else .fault (.undefined .EL1 0x0 s)
      else if s.el = .EL1 then
        if el2Traps ∧ s.hcrTid3 = true then .fault (.systemAccessTrap .EL2 0x18 s)
        else .next returned
      else .next returned

/-- Where the level may read, the read answers a next state: `x[n]` holds all 64 bits of `REGVAL` and
the pc is advanced by 4; with destination `XZR` only the pc changes (40_mrs_id_aa64mmfr2.md section
1; decisions D8 and D9). -/
def Obligations.MrsCompletes : Prop :=
  ∀ s : State, s.MayRead →
    (∀ n : Fin 31, exec (.mrsIdAa64mmfr2 (.x n)) s =
      .next { s with x := s.x.set n.val s.impl.regval n.isLt, pc := s.pc + 4#64 }) ∧
    exec (.mrsIdAa64mmfr2 .xzr) s = .next { s with pc := s.pc + 4#64 }

/-- R111: a read at EL1 traps to EL2 with class 0x18 when EL2 is enabled, uses AArch64 and has set
TID3, and returns the register otherwise, whatever the IDS field holds. -/
def Obligations.MrsAtEl1 : Prop :=
  ∀ (rt : Reg) (s : State), s.el = .EL1 →
    (s.el2Enabled = true ∧ s.el2UsingAArch32 = false ∧ s.hcrTid3 = true →
      ∃ stopped, exec (.mrsIdAa64mmfr2 rt) s = .fault (.systemAccessTrap .EL2 0x18 stopped)) ∧
    (¬ (s.el2Enabled = true ∧ s.el2UsingAArch32 = false ∧ s.hcrTid3 = true) →
      ∃ t, exec (.mrsIdAa64mmfr2 rt) s = .next t ∧
        ∀ n : Fin 31, rt = .x n → readX n t = s.impl.regval)

/-- With ARMv8.4-IDST a read at EL0 traps with class 0x18, to EL2 when EL2 is enabled, uses
AArch64 and has set TGE, and to EL1 otherwise (60_exceptions.md section 2, R110). That the feature is
implemented exactly if IDS is 0b0001 is the spec's decision D6, notes/assumptions/16.md. -/
def Obligations.MrsAtEl0WithIdst : Prop :=
  ∀ (rt : Reg) (s : State), s.el = .EL0 → isIdstImplemented s.impl = true →
    (s.el2Enabled = true ∧ s.el2UsingAArch32 = false ∧ s.hcrTge = true →
      ∃ stopped, exec (.mrsIdAa64mmfr2 rt) s = .fault (.systemAccessTrap .EL2 0x18 stopped)) ∧
    (¬ (s.el2Enabled = true ∧ s.el2UsingAArch32 = false ∧ s.hcrTge = true) →
      ∃ stopped, exec (.mrsIdAa64mmfr2 rt) s = .fault (.systemAccessTrap .EL1 0x18 stopped))

/-- A read raises no exception but two: a System access trap with class 0x18, at EL0 with
ARMv8.4-IDST or at EL1 under TID3, and an Undefined Instruction with class 0x0, at EL0 without
ARMv8.4-IDST. Each is taken to EL1 or to EL2, and both targets of both come up, on a valid
implementation and with every destination (60_exceptions.md section 1, R105). The test of ARMv8.4-IDST
is the spec's decision D6, notes/assumptions/16.md; the target of an UNDEFINED is its decision D13. -/
def Obligations.ExceptionsOfTheRead : Prop :=
  (∀ (rt : Reg) (s : State) (f : Fault), exec (.mrsIdAa64mmfr2 rt) s = .fault f →
    (f.target = .EL1 ∨ f.target = .EL2) ∧
    ((f = .systemAccessTrap f.target 0x18 f.stopped ∧
        ((s.el = .EL0 ∧ isIdstImplemented s.impl = true) ∨ (s.el = .EL1 ∧ s.hcrTid3 = true))) ∨
     (f = .undefined f.target 0x0 f.stopped ∧ s.el = .EL0 ∧
        isIdstImplemented s.impl = false))) ∧
  (∀ (rt : Reg) (target : ExceptionLevel), target = .EL1 ∨ target = .EL2 →
    (∃ s stopped, s.impl.valid = true ∧
      exec (.mrsIdAa64mmfr2 rt) s = .fault (.systemAccessTrap target 0x18 stopped)) ∧
    (∃ s stopped, s.impl.valid = true ∧
      exec (.mrsIdAa64mmfr2 rt) s = .fault (.undefined target 0x0 stopped)))

/-- Without ARMv8.4-IDST a read at EL0 is UNDEFINED: the exception with class 0x0, the state as
it was, and this is the only place where a read is UNDEFINED on a valid implementation
(60_exceptions.md section 1, R106; the target is the spec's decision D13, the record D12). -/
def Obligations.MrsUndefinedOnlyAtEl0WithoutIdst : Prop :=
  (∀ (rt : Reg) (s : State), s.el = .EL0 → Field.IDS.get s.impl.regval = 0#4 →
    exec (.mrsIdAa64mmfr2 rt) s =
      .fault (.undefined (if s.el2Enabled = true ∧ s.hcrTge = true then .EL2 else .EL1) 0x0 s)) ∧
  (∀ (rt : Reg) (s stopped : State) (target : ExceptionLevel) (ec : Nat),
    s.impl.valid = true → exec (.mrsIdAa64mmfr2 rt) s = .fault (.undefined target ec stopped) →
    s.el = .EL0 ∧ Field.IDS.get s.impl.regval = 0#4 ∧ ec = 0x0 ∧ stopped = s)

/-- An UNDEFINED instruction at EL0 is taken to EL2 if EL2 is enabled and TGE is set, else to
EL1; the write form at EL1, EL2 and EL3 is taken to the current level (60_exceptions.md section 2,
R109: the spec's decision D13). -/
def Obligations.UndefinedTargets : Prop :=
  ∀ (rt : Reg) (s : State),
    let fromEl0 : ExceptionLevel :=
      if s.el2Enabled = true ∧ s.hcrTge = true then .EL2 else .EL1
    (s.el = .EL0 → Field.IDS.get s.impl.regval = 0#4 →
      exec (.mrsIdAa64mmfr2 rt) s = .fault (.undefined fromEl0 0x0 s)) ∧
    (s.el = .EL0 → exec (.msrIdAa64mmfr2 rt) s = .fault (.undefined fromEl0 0x0 s)) ∧
    (s.el ≠ .EL0 → exec (.msrIdAa64mmfr2 rt) s = .fault (.undefined s.el 0x0 s))

/-- The class reported, by the IDS field and the cause (60_exceptions.md section 1, R108; derived by the
spec). -/
def Obligations.ExceptionClassByIds : Prop :=
  ∀ (rt : Reg) (s : State),
    (s.el = .EL0 → Field.IDS.get s.impl.regval = 0#4 →
      ∃ f, exec (.mrsIdAa64mmfr2 rt) s = .fault f ∧ f.ec = 0x0) ∧
    (s.el = .EL0 → Field.IDS.get s.impl.regval = 1#4 →
      ∃ f, exec (.mrsIdAa64mmfr2 rt) s = .fault f ∧ f.ec = 0x18) ∧
    (s.el = .EL1 → s.el2Enabled = true → s.el2UsingAArch32 = false → s.hcrTid3 = true →
      (Field.IDS.get s.impl.regval = 0#4 ∨ Field.IDS.get s.impl.regval = 1#4) →
      ∃ f, exec (.mrsIdAa64mmfr2 rt) s = .fault f ∧ f.ec = 0x18)

/-- The accessor agrees with the IDS field's own text (20_memory.md section 1, 90_conflicts.md K1):
whatever class the cell of the IDS value says reports an exception of this cause is the class of the
exception the read raises. -/
def Obligations.AccessorAgreesWithIdsText : Prop :=
  ∀ (rt : Reg) (s : State) (f : Fault), exec (.mrsIdAa64mmfr2 rt) s = .fault f →
    ∀ ec : Nat,
      idsReportedEc s.impl.regval (if s.el = .EL1 then .hcrTid else .other) = some ec →
      f.ec = ec

/-- On a valid implementation a read at EL0 never succeeds (a System access trap from Armv8.4,
UNDEFINED before), at EL1 it succeeds unless EL2 is enabled, uses AArch64 and has set TID3, at EL2
and EL3 it always succeeds, and no level has a write accessor (60_exceptions.md section 6, R119;
derived by the spec). -/
def Obligations.WhatEachLevelMayDo : Prop :=
  ∀ (rt : Reg) (s : State), s.impl.valid = true →
    (s.el = .EL0 → s.impl.archMinor ≥ 4 →
      ∃ target, exec (.mrsIdAa64mmfr2 rt) s = .fault (.systemAccessTrap target 0x18 s)) ∧
    (s.el = .EL0 → s.impl.archMinor < 4 →
      ∃ target, exec (.mrsIdAa64mmfr2 rt) s = .fault (.undefined target 0x0 s)) ∧
    (s.el = .EL1 → ((∃ t, exec (.mrsIdAa64mmfr2 rt) s = .next t) ↔
      ¬ (s.el2Enabled = true ∧ s.el2UsingAArch32 = false ∧ s.hcrTid3 = true))) ∧
    (s.el = .EL2 → ∃ t, exec (.mrsIdAa64mmfr2 rt) s = .next t) ∧
    (s.el = .EL3 → ∃ t, exec (.mrsIdAa64mmfr2 rt) s = .next t) ∧
    (∀ t, exec (.msrIdAa64mmfr2 rt) s ≠ .next t)

/-- An EL0 read never reports the TID3 trap: TID3 changes nothing of its exception; an EL1 read never
reports UNDEFINED (60_exceptions.md section 3). -/
def Obligations.ExceptionPriority : Prop :=
  (∀ (rt : Reg) (s : State) (b : Bool), s.el = .EL0 →
    ∃ f g, exec (.mrsIdAa64mmfr2 rt) s = .fault f ∧
      exec (.mrsIdAa64mmfr2 rt) { s with hcrTid3 := b } = .fault g ∧
      f.target = g.target ∧ f.ec = g.ec) ∧
  (∀ (rt : Reg) (s stopped : State) (target : ExceptionLevel) (ec : Nat), s.el = .EL1 →
    exec (.mrsIdAa64mmfr2 rt) s ≠ .fault (.undefined target ec stopped))

/-- `HCR_EL2.TGE` and the IDS field change the outcome only at EL0 and `HCR_EL2.TID3` only at EL1, and
where EL2 is not enabled none of the `HCR_EL2` bits has any effect (95_test_vectors.md section 2.3,
40_mrs_id_aa64mmfr2.md section 1). -/
def Obligations.WhereEachInputMatters : Prop :=
  ∀ (el : ExceptionLevel) (ids ids' : Nibble) (en a32 tge tge' tid3 tid3' : Bool),
    (el ≠ .EL0 → access el ids en a32 tge tid3 = access el ids' en a32 tge' tid3) ∧
    (el ≠ .EL1 → access el ids en a32 tge tid3 = access el ids en a32 tge tid3') ∧
    (access el ids false a32 tge tid3 = access el ids false a32 tge' tid3') ∧
    (ids = 1#4 → access el ids en true tge tid3 = access el ids en true tge' tid3')

/-- R63: TID3 is consulted only at EL1 with EL2 enabled and using AArch64; there it decides between the
trap to EL2 and the value, and elsewhere it has no effect. -/
def Obligations.Tid3MattersOnlyAtEl1UnderEl2 : Prop :=
  ∀ (el : ExceptionLevel) (ids : Nibble) (en a32 tge tid3 tid3' : Bool),
    (¬ (el = .EL1 ∧ en = true ∧ a32 = false) →
      access el ids en a32 tge tid3 = access el ids en a32 tge tid3') ∧
    (el = .EL1 ∧ en = true ∧ a32 = false →
      (access el ids en a32 tge tid3 = .trap .EL2 0x18 ↔ tid3 = true) ∧
      (access el ids en a32 tge tid3 = .value ↔ tid3 = false))

/-- The field value 31 names `XZR`, a write to which changes no state, and a read with destination `XZR` raises
exactly the exceptions a read with any other destination raises (10_state.md section 5, R68: the
spec's decision D8). -/
def Obligations.ZeroRegisterDestination : Prop :=
  Reg.ofRt 31 = .xzr ∧
  (∀ (v : XWord) (s : State), writeX .xzr v s = s) ∧
  (∀ (n : Fin 31) (s : State) (f : Fault),
    exec (.mrsIdAa64mmfr2 .xzr) s = .fault f ↔ exec (.mrsIdAa64mmfr2 (.x n)) s = .fault f) ∧
  (∀ s t : State, exec (.mrsIdAa64mmfr2 .xzr) s = .next t → t = { s with pc := s.pc + 4#64 })

/-- The frame of the read: every general register but the destination, the implementation and with it
the register itself, the Exception level, the two `HCR_EL2` bits, the two predicates about EL2 and
the words still to execute are as they were (40_mrs_id_aa64mmfr2.md section 1, 10_state.md section
5). -/
def Obligations.MrsFrame : Prop :=
  ∀ (rt : Reg) (s t : State), exec (.mrsIdAa64mmfr2 rt) s = .next t →
    (∀ n : Fin 31, rt ≠ .x n → readX n t = readX n s) ∧
    t.impl = s.impl ∧ t.el = s.el ∧ t.hcrTge = s.hcrTge ∧ t.hcrTid3 = s.hcrTid3 ∧
    t.el2Enabled = s.el2Enabled ∧ t.el2UsingAArch32 = s.el2UsingAArch32 ∧
    t.program = s.program

/-- A read that returns a value ends with the pc advanced by 4 modulo 2^64, one that raises an
exception leaves it, and the pc of a step's next state is 4-byte aligned (10_state.md section 5, R69: the
spec's decision D9). -/
def Obligations.ProgramCounterAdvance : Prop :=
  (∀ (rt : Reg) (s t : State), exec (.mrsIdAa64mmfr2 rt) s = .next t →
    t.pc.toNat = (s.pc.toNat + 4) % 2 ^ 64) ∧
  (∀ (rt : Reg) (s : State) (f : Fault), exec (.mrsIdAa64mmfr2 rt) s = .fault f →
    f.stopped.pc = s.pc) ∧
  (∀ s t : State, step s = .next t → t.pc.toNat % 4 = 0)

/-- Two states that differ in the register's value, but not in its IDS field or in the five inputs,
raise the same exception on a read: nothing else of a register that is kept from a level shows there
(40_mrs_id_aa64mmfr2.md section 1, 60_exceptions.md section 2). -/
def Obligations.TrappedReadRevealsOnlyIds : Prop :=
  ∀ (rt rt' : Reg) (s t : State) (f : Fault), s.SameInputs t →
    Field.IDS.get s.impl.regval = Field.IDS.get t.impl.regval →
    exec (.mrsIdAa64mmfr2 rt) s = .fault f →
    ∃ g, exec (.mrsIdAa64mmfr2 rt') t = .fault g ∧ g.target = f.target ∧ g.ec = f.ec

/-! The write form. -/

/-- The write form, the words 0xD5180740 + t, is UNDEFINED at every Exception level, for every operand and in every
configuration, with the class 0x0 and the target of decision D13, and writes nothing
(30_encoding.md section 4, R96: the spec's decision D11). -/
def Obligations.MsrAlwaysUndefined : Prop :=
  (∀ rt : Reg, (encode (.msrIdAa64mmfr2 rt)).toNat = 0xD5180740 + rt.toRt.toNat) ∧
  ∀ (rt : Reg) (s : State),
    exec (.msrIdAa64mmfr2 rt) s =
      .fault (.undefined
        (match s.el with
          | .EL0 => if s.el2Enabled = true ∧ s.hcrTge = true then .EL2 else .EL1
          | .EL1 => .EL1
          | .EL2 => .EL2
          | .EL3 => .EL3) 0x0 s)

/-! Steps and runs. -/

/-- A step runs the instruction that the next word decodes to, and on a next state moves past that
word (70_reset_and_hazards.md section 5; decision D12). -/
def Obligations.StepRunsDecodedInstruction : Prop :=
  ∀ (s : State) (w : InstrWord) (rest : List InstrWord) (i : Instr),
    s.Launchable → s.program = w :: rest → decode w = .instr i →
    step s =
      (match exec i s with
        | .next t => .next { t with program := t.program.tail }
        | .fault f => .fault f
        | .refused r => .refused r)

/-- No step changes the implementation, `REGVAL` among it, and a state whose `REGVAL` is not valid
is refused (00_scope.md section 4, R9: the spec's decision D2). That the refusal has this name also
where the pc is misaligned, no word is left or the word is foreign is the model's choice, the order of
the checks: notes/assumptions/7.md. -/
def Obligations.ConfigurationConstantAndChecked : Prop :=
  (∀ s t : State, step s = .next t → t.impl = s.impl) ∧
  (∀ s : State, s.impl.valid = false → step s = .refused .invalidConfiguration)

/-- A misaligned pc is refused by the model (20_memory.md section 2, R80: the spec's decision D10). That
it is named after an invalid configuration and before an ended program and a foreign word is the
model's choice, the order of the checks: notes/assumptions/7.md. -/
def Obligations.MisalignedPcRefused : Prop :=
  ∀ s : State, s.impl.valid = true → s.pc.toNat % 4 ≠ 0 → step s = .refused .misalignedPc

/-- A word that is neither of the two patterns of R94 is refused by name, in whatever state
(30_encoding.md section 4, R95: the spec's decision D10). -/
def Obligations.ForeignWordRefused : Prop :=
  ∀ (s : State) (w : InstrWord) (rest : List InstrWord),
    w &&& 0xFFFFFFE0#32 ≠ 0xD5380740#32 → w &&& 0xFFFFFFE0#32 ≠ 0xD5180740#32 →
    decode w = .notInScope w ∧
    (s.Launchable → s.program = w :: rest → step s = .refused (.notInScope w))

/-- No step changes the Exception level, the two `HCR_EL2` bits or the two predicates about EL2: they
are inputs no rule writes (10_state.md section 5, 60_exceptions.md section 6). -/
def Obligations.StepKeepsInputs : Prop :=
  ∀ s t : State, step s = .next t → s.SameInputs t

/-- The invariant: a step from a state with a valid implementation and an aligned pc leaves such a
state, with the same `REGVAL` and with one word fewer to execute (00_scope.md section 4, 10_state.md section
5; decisions D2 and D9). -/
def Obligations.StepKeepsLaunchable : Prop :=
  ∀ s t : State, s.Launchable → step s = .next t →
    t.Launchable ∧ t.impl.regval = s.impl.regval ∧ t.program = s.program.tail

/-- The state after reset has the invariant, and it meets the premises of a real PE (R66). Its values
are the model's choice: notes/assumptions/1.md to 3.md. -/
def Obligations.ResetIsLaunchable : Prop :=
  State.reset.Launchable ∧ State.reset.DescribesRealPe

/-- What the model's reset state holds. Every value here is the model's choice: notes/assumptions/1.md
(the implementation), 2.md (the general registers, the pc and the inputs), 3.md (the Exception level) and 6.md (no
program). -/
def Obligations.ResetStateValues : Prop :=
  State.reset.impl.regval = 0x1201011110000011#64 ∧ State.reset.impl.archMinor = 5 ∧
  State.reset.impl.haveEl2 = true ∧ State.reset.impl.haveSecEl2 = true ∧
  State.reset.impl.haveEvt = true ∧ State.reset.impl.nvV85Strict = false ∧
  (∀ n : Fin 31, readX n State.reset = 0) ∧ State.reset.pc = 0 ∧ State.reset.el = .EL3 ∧
  State.reset.hcrTge = false ∧ State.reset.hcrTid3 = false ∧
  State.reset.el2Enabled = false ∧ State.reset.el2UsingAArch32 = false ∧
  State.reset.program = []

/-- Exceptions are precise (60_exceptions.md section 4, R114; derived by the spec): a step that raises one has changed no state, and a run that ends in
one has completed every earlier instruction. -/
def Obligations.ExceptionsArePrecise : Prop :=
  (∀ (i : Instr) (s : State) (f : Fault), exec i s = .fault f → f.stopped = s) ∧
  (∀ (k : Nat) (s : State) (f : Fault), runFor k s = .fault f →
    ∃ j, j < k ∧ runFor j s = .next f.stopped ∧ step f.stopped = .fault f)

/-- After `k` steps the pc is 4 times `k` further, modulo 2^64, `k` words are done, and the
implementation and the inputs are as they were (70_reset_and_hazards.md section 5; decisions D9 and
D12). -/
def Obligations.RunAdvances : Prop :=
  ∀ (k : Nat) (s t : State), runFor k s = .next t →
    k ≤ s.program.length ∧ t.pc.toNat = (s.pc.toNat + 4 * k) % 2 ^ 64 ∧
    t.program = s.program.drop k ∧ t.impl = s.impl ∧ s.SameInputs t

/-- Every read that returns a value, anywhere in one run, returns the same 64 bits (20_memory.md
section 3; decision D17). -/
def Obligations.ReadsOfOneRunAgree : Prop :=
  ∀ (k : Nat) (n m : Fin 31) (s t s' t' : State),
    runFor k s = .next t →
    exec (.mrsIdAa64mmfr2 (.x n)) s = .next s' → exec (.mrsIdAa64mmfr2 (.x m)) t = .next t' →
    readX n s' = readX m t'

/-- A run of reads at a level that may read completes: its final state has every word done, the pc
advanced by 4 for each, `REGVAL` in every register some word names, and every other register as it
was (70_reset_and_hazards.md section 5; decisions D9 and D12). -/
def Obligations.RunOfReadsCompletes : Prop :=
  ∀ s : State, s.Launchable → s.MayRead →
    (∀ w ∈ s.program, ∃ rt, decode w = .instr (.mrsIdAa64mmfr2 rt)) →
    ∃ t, runProgram s = .next t ∧ t.program = [] ∧
      t.pc.toNat = (s.pc.toNat + 4 * s.program.length) % 2 ^ 64 ∧
      ∀ n : Fin 31,
        ((∃ w ∈ s.program, decode w = .instr (.mrsIdAa64mmfr2 (.x n))) →
          readX n t = s.impl.regval) ∧
        ((¬ ∃ w ∈ s.program, decode w = .instr (.mrsIdAa64mmfr2 (.x n))) →
          readX n t = readX n s)

/-- A run from a launch state ends in one of three ways: a final state, with every word executed
and the pc at the launch pc plus four times the number of words; a fault state of an instruction of
the program; or a refusal, of a word of the program that is outside the spec
(70_reset_and_hazards.md section 5, R128: the spec's decision D12). -/
def Obligations.RunEndsInOneOfThreeWays : Prop :=
  ∀ s : State, s.Launchable →
    match runProgram s with
    | .next t =>
      t.program = [] ∧ t.pc = s.pc + BitVec.ofNat 64 (4 * s.program.length) ∧
      ∀ w ∈ s.program, ∃ rt, decode w = .instr (.mrsIdAa64mmfr2 rt)
    | .fault f =>
      ∃ w ∈ s.program, ∃ i, decode w = .instr i ∧ exec i f.stopped = .fault f
    | .refused r => ∃ w ∈ s.program, decode w = .notInScope w ∧ r = .notInScope w

/-- A run ends at the first word that is outside the spec or is the write form, after the reads before
it: the word is refused by name, or the write form is UNDEFINED in the state those reads left
(70_reset_and_hazards.md section 5; decisions D10 to D13). -/
def Obligations.RunStopsAtFirstStop : Prop :=
  ∀ (s : State) (reads rest : List InstrWord) (w : InstrWord),
    s.Launchable → s.MayRead → s.program = reads ++ w :: rest →
    (∀ v ∈ reads, ∃ rt, decode v = .instr (.mrsIdAa64mmfr2 rt)) →
    (decode w = .notInScope w → runProgram s = .refused (.notInScope w)) ∧
    (∀ rt, decode w = .instr (.msrIdAa64mmfr2 rt) →
      ∃ t, runFor reads.length s = .next t ∧
        runProgram s = .fault (.undefined s.el 0x0 t))

/-- A step of one PE leaves every other PE as it was, and its own next state is the one it would reach
alone (60_exceptions.md section 8, R121: the spec's decision D20). -/
def Obligations.PesAreIndependent : Prop :=
  ∀ (pes pes' : List State) (n : Nat), stepPe pes n = some (.next pes') →
    pes'.length = pes.length ∧ (∀ k, k ≠ n → pes'[k]? = pes[k]?) ∧
    ∃ s t, pes[n]? = some s ∧ step s = .next t ∧ pes'[n]? = some t
end

