-- ==== Sys2Proof/Laws/Decode.lean ====
section
/-! SUPPORT. The register field of a word, in both directions, and what the decoder's mask keeps. -/

namespace Sys2Proof

@[simp] theorem Reg.ofRt_toRt (r : Reg) : Reg.ofRt r.toRt = r := by
  cases r with
  | xzr => rfl
  | x n => revert n; decide

@[simp] theorem Reg.toRt_ofRt (f : BitVec 5) : (Reg.ofRt f).toRt = f := by
  revert f; decide

/-- The decoder's mask keeps bits [31:5]: a word matches a pattern whose low five bits are zero exactly
if its high 27 bits are the pattern's (R90, R94). -/
theorem masked_eq_iff (w p : InstrWord) (hp : p.extractLsb' 0 5 = 0#5) :
    w &&& 0xFFFFFFE0#32 = p ↔ w.extractLsb' 5 27 = p.extractLsb' 5 27 := by
  constructor
  · rintro rfl
    rw [BitVec.extractLsb'_and]
    exact (BitVec.and_allOnes (x := w.extractLsb' 5 27)).symm
  · intro h
    apply BitVec.eq_of_getLsbD_eq
    intro i hi
    rw [BitVec.getLsbD_and]
    by_cases hlt : i < 5
    · have hz := congrArg (·.getLsbD i) hp
      simp only [BitVec.getLsbD_extractLsb', hlt, decide_true, Bool.true_and, Nat.zero_add] at hz
      rw [hz]
      interval_cases i <;> simp
    · have hw := congrArg (·.getLsbD (i - 5)) h
      simp only [BitVec.getLsbD_extractLsb', show i - 5 < 27 by omega, decide_true, Bool.true_and,
        show 5 + (i - 5) = i by omega] at hw
      rw [hw]
      have : (0xFFFFFFE0#32).getLsbD i = true := by
        interval_cases i <;> rfl
      rw [this, Bool.and_true]

/-- A word is its high 27 bits and its `Rt` field. -/
theorem append_extract_word (w : InstrWord) :
    (w.extractLsb' 5 27 ++ w.extractLsb' 0 5 : BitVec 32) = w := by
  apply BitVec.eq_of_getLsbD_eq
  intro i hi
  rw [BitVec.getLsbD_append]
  split
  · simp [*]
  · simp only [BitVec.getLsbD_extractLsb']
    rw [show 5 + (i - 5) = i by omega, show decide (i - 5 < 27) = true by simp; omega, Bool.true_and]

end Sys2Proof
end

