-- ==== Sys2Proof/Laws/State.lean ====
section
/-! SUPPORT. What each update of a state does to each field. -/

namespace Sys2Proof.Machine

@[simp] theorem advancePc_impl (s : State) : (advancePc s).impl = s.impl := rfl
@[simp] theorem advancePc_x (s : State) : (advancePc s).x = s.x := rfl
@[simp] theorem advancePc_pc (s : State) : (advancePc s).pc = s.pc + 4#64 := rfl
@[simp] theorem advancePc_el (s : State) : (advancePc s).el = s.el := rfl
@[simp] theorem advancePc_hcrTge (s : State) : (advancePc s).hcrTge = s.hcrTge := rfl
@[simp] theorem advancePc_hcrTid3 (s : State) : (advancePc s).hcrTid3 = s.hcrTid3 := rfl
@[simp] theorem advancePc_el2Enabled (s : State) : (advancePc s).el2Enabled = s.el2Enabled := rfl
@[simp] theorem advancePc_el2UsingAArch32 (s : State) :
    (advancePc s).el2UsingAArch32 = s.el2UsingAArch32 := rfl
@[simp] theorem advancePc_program (s : State) : (advancePc s).program = s.program := rfl

@[simp] theorem retire_impl (s : State) : (retire s).impl = s.impl := rfl
@[simp] theorem retire_x (s : State) : (retire s).x = s.x := rfl
@[simp] theorem retire_pc (s : State) : (retire s).pc = s.pc := rfl
@[simp] theorem retire_el (s : State) : (retire s).el = s.el := rfl
@[simp] theorem retire_hcrTge (s : State) : (retire s).hcrTge = s.hcrTge := rfl
@[simp] theorem retire_hcrTid3 (s : State) : (retire s).hcrTid3 = s.hcrTid3 := rfl
@[simp] theorem retire_el2Enabled (s : State) : (retire s).el2Enabled = s.el2Enabled := rfl
@[simp] theorem retire_el2UsingAArch32 (s : State) :
    (retire s).el2UsingAArch32 = s.el2UsingAArch32 := rfl
@[simp] theorem retire_program (s : State) : (retire s).program = s.program.tail := rfl

@[simp] theorem placeWord_impl (w : InstrWord) (s : State) : (placeWord w s).impl = s.impl := rfl
@[simp] theorem placeWord_x (w : InstrWord) (s : State) : (placeWord w s).x = s.x := rfl
@[simp] theorem placeWord_pc (w : InstrWord) (s : State) : (placeWord w s).pc = s.pc := rfl
@[simp] theorem placeWord_el (w : InstrWord) (s : State) : (placeWord w s).el = s.el := rfl
@[simp] theorem placeWord_program (w : InstrWord) (s : State) :
    (placeWord w s).program = w :: s.program.tail := rfl

@[simp] theorem writeX_xzr (v : XWord) (s : State) : writeX .xzr v s = s := rfl
@[simp] theorem writeX_impl (rt : Reg) (v : XWord) (s : State) : (writeX rt v s).impl = s.impl := by
  cases rt <;> rfl
@[simp] theorem writeX_pc (rt : Reg) (v : XWord) (s : State) : (writeX rt v s).pc = s.pc := by
  cases rt <;> rfl
@[simp] theorem writeX_el (rt : Reg) (v : XWord) (s : State) : (writeX rt v s).el = s.el := by
  cases rt <;> rfl
@[simp] theorem writeX_hcrTge (rt : Reg) (v : XWord) (s : State) :
    (writeX rt v s).hcrTge = s.hcrTge := by cases rt <;> rfl
@[simp] theorem writeX_hcrTid3 (rt : Reg) (v : XWord) (s : State) :
    (writeX rt v s).hcrTid3 = s.hcrTid3 := by cases rt <;> rfl
@[simp] theorem writeX_el2Enabled (rt : Reg) (v : XWord) (s : State) :
    (writeX rt v s).el2Enabled = s.el2Enabled := by cases rt <;> rfl
@[simp] theorem writeX_el2UsingAArch32 (rt : Reg) (v : XWord) (s : State) :
    (writeX rt v s).el2UsingAArch32 = s.el2UsingAArch32 := by cases rt <;> rfl
@[simp] theorem writeX_program (rt : Reg) (v : XWord) (s : State) :
    (writeX rt v s).program = s.program := by cases rt <;> rfl

@[simp] theorem readX_advancePc (n : Fin 31) (s : State) : readX n (advancePc s) = readX n s := rfl
@[simp] theorem readX_retire (n : Fin 31) (s : State) : readX n (retire s) = readX n s := rfl

/-- A read after a write to the same register gives the value written. -/
@[simp] theorem readX_writeX_same (n : Fin 31) (v : XWord) (s : State) :
    readX n (writeX (.x n) v s) = v := by
  simp [readX, writeX]

/-- A write to another register, or to `XZR`, leaves a register as it was. -/
theorem readX_writeX_other {n : Fin 31} {rt : Reg} (h : rt ≠ .x n) (v : XWord) (s : State) :
    readX n (writeX rt v s) = readX n s := by
  cases rt with
  | xzr => rfl
  | x m =>
    have hne : m.val ≠ n.val := fun e => h (by rw [Fin.ext e])
    simp [readX, writeX, Vector.getElem_set_ne, hne]

end Sys2Proof.Machine
end

