-- ==== Sys2Proof/Laws/Ops.lean ====
section
/-! SUPPORT. What the shared operations and the two meanings can do: one inversion lemma per outcome. -/

namespace Sys2Proof.Machine

/-- The three cases of a read, one per outcome of the access rule. -/
theorem readThroughAccess_cases (rt : Reg) (s : State) :
    (accessOf s = .value ∧
      readThroughAccess rt s = .next (advancePc (writeX rt (readIdRegister s) s))) ∨
    (∃ el ec, accessOf s = .trap el ec ∧
      readThroughAccess rt s = .fault (.systemAccessTrap el ec s)) ∨
    (∃ el, accessOf s = .undef el ∧
      readThroughAccess rt s = .fault (.undefined el ecUndefined s)) := by
  unfold readThroughAccess
  cases accessOf s with
  | value => exact .inl ⟨rfl, rfl⟩
  | trap el ec => exact .inr (.inl ⟨el, ec, rfl, rfl⟩)
  | undef el => exact .inr (.inr ⟨el, rfl, rfl⟩)

/-- An instruction that answers a next state is a read whose access returns the register. -/
theorem exec_next_cases {i : Instr} {s t : State} (h : exec i s = .next t) :
    ∃ rt, i = .mrsIdAa64mmfr2 rt ∧ accessOf s = .value ∧
      t = advancePc (writeX rt s.impl.regval s) := by
  cases i with
  | msrIdAa64mmfr2 rt => exact absurd h (by simp [exec, execMsrIdAa64mmfr2, raiseUndefined])
  | mrsIdAa64mmfr2 rt =>
    simp only [exec, execMrsIdAa64mmfr2] at h
    rcases readThroughAccess_cases rt s with ⟨ha, hr⟩ | ⟨el, ec, -, hr⟩ | ⟨el, -, hr⟩ <;>
      rw [hr] at h
    · exact ⟨rt, rfl, ha, by simpa [readIdRegister] using h.symm⟩
    · cases h
    · cases h

/-- No instruction is refused. -/
theorem exec_not_refused (i : Instr) (s : State) (r : Refusal) : exec i s ≠ .refused r := by
  cases i with
  | msrIdAa64mmfr2 rt => simp [exec, execMsrIdAa64mmfr2, raiseUndefined]
  | mrsIdAa64mmfr2 rt =>
    simp only [exec, execMrsIdAa64mmfr2]
    rcases readThroughAccess_cases rt s with ⟨-, hr⟩ | ⟨_, _, -, hr⟩ | ⟨_, -, hr⟩ <;> simp [hr]

end Sys2Proof.Machine
end

