-- ==== Sys2Proof/Laws/PerInstr.lean ====
section
/-! SUPPORT. Statements made of every instruction, one lemma per constructor of Instr. -/

namespace Sys2Proof.Laws.EncodedName

/-- The word of an instruction is a System register move, is four bytes long, and names
ID_AA64MMFR2_EL1 (R89, R91). -/
def Statement (i : Instr) : Prop :=
  (sysMoveOf (encode i)).map SysMove.name = some SysRegName.idAa64mmfr2El1 ∧
  (encodeBytes i).length = 4

theorem mrsIdAa64mmfr2 (rt : Reg) : Statement (.mrsIdAa64mmfr2 rt) := by
  cases rt with
  | xzr => exact ⟨by decide, rfl⟩
  | x n => exact ⟨by revert n; decide, rfl⟩

theorem msrIdAa64mmfr2 (rt : Reg) : Statement (.msrIdAa64mmfr2 rt) := by
  cases rt with
  | xzr => exact ⟨by decide, rfl⟩
  | x n => exact ⟨by revert n; decide, rfl⟩

end Sys2Proof.Laws.EncodedName
end

