-- ==== Sys2Proof/Laws/Step.lean ====
section
/-! SUPPORT. What the fetch and a step can do. -/

namespace Sys2Proof.Machine

/-- The fetch gives an instruction only in a state whose configuration is valid and whose pc is
aligned, and it is what the next word decodes to. -/
theorem fetch_instr_cases {s : State} {i : Instr} (h : fetch s = .instr i) :
    s.impl.valid = true ∧ pcAligned s ∧
      ∃ w rest, s.program = w :: rest ∧ decode w = .instr i := by
  unfold fetch at h
  split at h
  · cases h
  · rename_i hv
    split at h
    · cases h
    · rename_i ha
      split at h
      · cases h
      · rename_i w rest hp
        split at h
        · rename_i j hd
          cases h
          exact ⟨by simpa using hv, not_not.mp ha, w, rest, hp, hd⟩
        · cases h

/-- A step that answers a next state executed a read whose access returned the register. -/
theorem step_next_cases {s t : State} (h : step s = .next t) :
    s.impl.valid = true ∧ pcAligned s ∧ accessOf s = .value ∧
      ∃ rt w rest, s.program = w :: rest ∧ decode w = .instr (.mrsIdAa64mmfr2 rt) ∧
        t = retire (advancePc (writeX rt s.impl.regval s)) := by
  unfold step at h
  split at h
  · cases h
  · rename_i i hf
    split at h
    · rename_i t' he
      obtain ⟨hv, ha, w, rest, hp, hd⟩ := fetch_instr_cases hf
      obtain ⟨rt, rfl, hacc, rfl⟩ := exec_next_cases he
      exact ⟨hv, ha, hacc, rt, w, rest, hp, hd, by simpa using h.symm⟩
    · cases h
    · cases h

end Sys2Proof.Machine
end

