-- ==== Sys2Proof/Laws/Run.lean ====
section
/-! SUPPORT. What a run of `k + 1` steps is, by the outcome of its first step, and that the model's run
is the host interface's. -/

namespace Sys2Proof.Machine

@[simp] theorem runFor_zero (s : State) : runFor 0 s = .next s := rfl

theorem runFor_of_next (k : Nat) {s t : State} (h : step s = .next t) :
    runFor (k + 1) s = runFor k t := by
  simp only [runFor, h]

theorem runFor_of_fault (k : Nat) {s : State} {f : Fault} (h : step s = .fault f) :
    runFor (k + 1) s = .fault f := by
  simp only [runFor, h]

theorem runFor_of_refused (k : Nat) {s : State} {r : Refusal} (h : step s = .refused r) :
    runFor (k + 1) s = .refused r := by
  simp only [runFor, h]

/-- A run that completes `k + 1` steps makes one and then `k`. -/
theorem runFor_succ_next {k : Nat} {s t : State} (h : runFor (k + 1) s = .next t) :
    ∃ u, step s = .next u ∧ runFor k u = .next t := by
  cases hs : step s with
  | next u => exact ⟨u, rfl, by rwa [runFor_of_next k hs] at h⟩
  | fault f => rw [runFor_of_fault k hs] at h; cases h
  | refused r => rw [runFor_of_refused k hs] at h; cases h

/-- The host's run of a machine is the only function with these two equations. -/
theorem core_run_unique (M : Host.Core) (g : Nat → M.State → Host.Outcome M.State M.Fault M.Refusal)
    (zero : ∀ s, g 0 s = .next s)
    (succ : ∀ k s, g (k + 1) s =
      match M.step s with
      | .next t => g k t
      | .fault f => .fault f
      | .refused r => .refused r)
    (k : Nat) (s : M.State) : M.run k s = g k s := by
  induction k generalizing s with
  | zero => exact (zero s).symm
  | succ k ih =>
    rw [succ, Host.Core.run]
    cases M.step s with
    | next t => exact ih t
    | fault f => rfl
    | refused r => rfl

/-- The model's run is the run of the host's interface. -/
theorem core_run_eq_runFor (k : Nat) (s : State) : Host.Core.run core k s = runFor k s := by
  refine core_run_unique core runFor (fun _ => rfl) (fun k s => ?_) k s
  have hstep : core.step s = step s := rfl
  cases hs : step s with
  | next t => rw [hstep, hs]; exact runFor_of_next k hs
  | fault f => rw [hstep, hs]; exact runFor_of_fault k hs
  | refused r => rw [hstep, hs]; exact runFor_of_refused k hs

end Sys2Proof.Machine
end

