-- ==== Sys2Proof/Tests/Slice0.lean ====
section
/-! SUPPORT. Tests against the worked values of 95_test_vectors.md, the WellFormed smoke test, and for
every statement with hypotheses a theorem that shows a state and operands meeting them (named
witness_ and the statement). -/

namespace Sys2Proof.Tests
open Sys2Proof Sys2Proof.Machine

/-- An implementation: version, EL2, Secure EL2, ARMv8.2-EVT, register value. -/
def impl (m : Nat) (el2 secel2 evt : Bool) (v : XWord) : Implementation :=
  { archMinor := m, haveEl2 := el2, haveSecEl2 := secel2, haveEvt := evt, nvV85Strict := false
    regval := v }

/-- A state with zero registers at pc 0x80000; `en`, `a32`, `tge`, `tid3` are the four inputs. -/
def st (c : Implementation) (el : ExceptionLevel) (en a32 tge tid3 : Bool)
    (program : List InstrWord) : State :=
  { impl := c, x := Vector.replicate 31 0, pc := 0x80000, el := el, hcrTge := tge, hcrTid3 := tid3
    el2Enabled := en, el2UsingAArch32 := a32, program := program }

/-- Armv8.2 without options, the register of the single steps S1 to S6. -/
def v82 : Implementation := impl 2 false false false 0x0000000000001011
/-- Armv8.4 without options, the register of S7 to S10. -/
def v84 : Implementation := impl 4 false false false 0x0001001100000011
/-- Armv8.1 with ARMv8.2-EVT, the register of S17. -/
def v81 : Implementation := impl 1 false false true 0x0200000000000000
/-- Armv8.5 with EL2 and ARMv8.2-EVT (section 2.2). -/
def v85 : Implementation := impl 5 true false true 0x1201001100000011

/-- The fields whose value is not permitted: the column "fields that fail" of section 2.2. -/
def failing (c : Implementation) : List Field := Field.all.filter fun f => !c.fieldOk f

/-! Decoding (section 2.4). -/

theorem test_decode_mrs_x3 :
    decode 0b11010101001110000000011101000011#32 = .instr (.mrsIdAa64mmfr2 (.x 3)) := by decide

theorem test_decode_msr_xzr :
    decode 0b11010101000110000000011101011111#32 = .instr (.msrIdAa64mmfr2 .xzr) := by decide

theorem test_decode_neighbours_refused :
    decode 0xD5380720#32 = .notInScope 0xD5380720#32 ∧
    decode 0xD5380760#32 = .notInScope 0xD5380760#32 ∧
    decode 0xD5380640#32 = .notInScope 0xD5380640#32 ∧
    decode 0xD5390740#32 = .notInScope 0xD5390740#32 ∧
    decode 0xD5300740#32 = .notInScope 0xD5300740#32 ∧
    decode 0xD503201F#32 = .notInScope 0xD503201F#32 ∧
    decode 0x00000000#32 = .notInScope 0x00000000#32 ∧
    decode 0xFFFFFFFF#32 = .notInScope 0xFFFFFFFF#32 := by decide

theorem test_encode_words :
    encode (.mrsIdAa64mmfr2 (.x 30)) = 0xD538075E#32 ∧
    encode (.msrIdAa64mmfr2 (.x 0)) = 0xD5180740#32 := by decide

theorem test_encode_bytes :
    encodeBytes (.mrsIdAa64mmfr2 (.x 0)) = [0x40#8, 0x07#8, 0x38#8, 0xD5#8] := by decide

theorem test_decode_bytes_truncated :
    decodeBytes [0x40#8, 0x07#8, 0x38#8] = .truncated [0x40#8, 0x07#8, 0x38#8] := by decide

theorem test_decode_table_rows :
    decodeTableWord 32 0xD5380745 = some (.mrsIdAa64mmfr2 (.x 5)) ∧
    decodeTableWord 32 0xD5180745 = some (.msrIdAa64mmfr2 (.x 5)) ∧
    decodeTableWord 32 0xD503201F = none := by decide

/-- R98 and R99. -/
theorem test_assembler_line :
    Instr.line (.mrsIdAa64mmfr2 (.x 0)) = "MRS X0, ID_AA64MMFR2_EL1" ∧
    Instr.line (.mrsIdAa64mmfr2 .xzr) = "MRS XZR, ID_AA64MMFR2_EL1" ∧
    SysRegName.genericName .idAa64mmfr2El1 = "S3_0_C0_C7_2" := by decide

/-- Membership vectors of the feature ID space (section 1, E3). -/
theorem test_feature_id_space :
    SysRegName.inFeatureIdSpace ⟨3, 0, 0, 0, 0⟩ = true ∧
    SysRegName.inFeatureIdSpace ⟨3, 1, 0, 0, 0⟩ = true ∧
    SysRegName.inFeatureIdSpace ⟨3, 3, 0, 0, 1⟩ = true ∧
    SysRegName.inFeatureIdSpace ⟨3, 2, 0, 0, 0⟩ = false ∧
    SysRegName.inFeatureIdSpace ⟨3, 0, 0, 8, 0⟩ = false ∧
    SysRegName.inFeatureIdSpace ⟨3, 0, 1, 0, 0⟩ = false ∧
    SysRegName.inFeatureIdSpace ⟨2, 0, 0, 7, 2⟩ = false := by decide

/-! Fields, queries and validity (sections 2.1 and 2.2). -/

theorem test_fields_of_descending_digits :
    Field.all.map (fun f => (f.get 0xFEDCBA9876543210).toNat) =
      [15, 14, 13, 12, 11, 10, 9, 8, 7, 6, 5, 4, 3, 2, 1, 0] := by decide

theorem test_fields_of_a_valid_value :
    Field.all.map (fun f => (f.get 0x1211011111100111).toNat) =
      [1, 2, 1, 1, 0, 1, 1, 1, 1, 1, 1, 0, 0, 1, 1, 1] := by decide

theorem test_queries :
    maxTxSZ 0x0000000001111111 .kb64 = 39 ∧ maxTxSZ 0x0221011112111111 .kb64 = 47 ∧
    maxTxSZ 0x0221011112111111 .kb16 = 48 ∧ vaBits 0x0000000001111111 .kb64 = 52 ∧
    vaBits 0x0000000001111111 .kb4 = 48 ∧ vaBits 0x1211011111100111 .kb64 = 48 ∧
    nvLevel 0x0221011112111111 = 2 ∧ bbmLevel 0x1211011111100111 = 1 := by decide

/-- The meaning cells of R24 and R42: EVT 1 has TOCU and not TTLBOS, NV 1 has NV1 and not NV2. -/
theorem test_meaning_cells :
    evtTrapSupported 0x0100000000000000 .TOCU = some true ∧
    evtTrapSupported 0x0100000000000000 .TTLBOS = some false ∧
    evtTrapSupported 0x0300000000000000 .TOCU = none ∧
    nvItemImplemented 0x0000000001000000 .hcrNV1 = some true ∧
    nvItemImplemented 0x0000000001000000 .hcrNV2 = some false ∧
    nvItemImplemented 0x0000000002000000 .VNCR_EL2 = some true := by decide

/-- Valid rows of section 2.2, one per version; a version above 5 counts as 5. -/
theorem test_valid_rows :
    (impl 0 true false true 0).WellFormed ∧ v81.WellFormed ∧ v82.WellFormed ∧
    (impl 3 true false false 0x0000000001111111).WellFormed ∧ v84.WellFormed ∧
    (impl 4 true true true 0x0221011112111111).WellFormed ∧ v85.WellFormed ∧
    (impl 7 true true true 0x1221011112111111).WellFormed := by decide

/-- The strict reading of R44 (section 2.2, last table). -/
theorem test_nv_strict :
    ({ v85 with nvV85Strict := true } : Implementation).valid = false ∧
    failing { v85 with nvV85Strict := true } = [.NV] ∧
    ({ impl 5 true false true 0x1201001102000011 with nvV85Strict := true } :
      Implementation).WellFormed := by decide

/-! The WellFormed smoke test: for each of the seventeen conditions of R57 an implementation that fails
it alone, and for the name check a name the move word cannot carry. -/

theorem test_illformed_high_fields :
    failing (impl 4 true true true 0x1221011112111111) = [.E0PD] ∧
    failing (impl 1 true false true 0x0300000000000000) = [.EVT] ∧
    failing (impl 4 false false false 0x0031001100000011) = [.BBM] ∧
    failing (impl 4 false false false 0x0000001100000011) = [.TTL] ∧
    failing (impl 4 false false false 0x0001101100000011) = [.RES47_44] ∧
    failing (impl 4 true true false 0x0001001112000011) = [.FWB] ∧
    failing (impl 4 false false false 0x0001000100000011) = [.IDS] ∧
    failing (impl 4 false false false 0x0001001000000011) = [.AT] := by decide

theorem test_illformed_low_fields :
    failing (impl 4 true true false 0x0001011102000011) = [.ST] ∧
    failing (impl 3 true false false 0x0000000000000011) = [.NV] ∧
    failing (impl 2 true false false 0x0000000000100011) = [.CCIDX] ∧
    failing (impl 2 false false false 0x0000000000021111) = [.VARange] ∧
    failing (impl 2 false false false 0x0000000000002011) = [.IESB] ∧
    failing (impl 2 false false false 0x0000000000000211) = [.LSM] ∧
    failing (impl 2 false false false 0x0000000000000001) = [.UAO] ∧
    failing (impl 2 false false false 0x0000000000000010) = [.CnP] := by decide

theorem test_illformed_evt_forced :
    failing (impl 5 true false false 0x1001001100000011) = [] ∧
    (impl 5 true false false 0x1001001100000011).evtForced = false := by decide

theorem test_illformed_refused :
    ¬ (impl 4 true true true 0x1221011112111111).WellFormed ∧
    ¬ (impl 2 false false false 0x0000000000000010).WellFormed ∧
    ¬ (impl 5 true false false 0x1001001100000011).WellFormed := by decide

theorem test_illformed_name : ¬ SysRegName.WellFormed ⟨0b01, 0, 0, 7, 2⟩ := by decide

/-! The access function (section 2.3): one row of each outcome, and the two where the routing of an
UNDEFINED differs from the routing of the trap. -/

theorem test_access_rows :
    access .EL0 0 true true true false = .undef .EL2 ∧
    access .EL0 1 true true true false = .trap .EL1 0x18 ∧
    access .EL0 1 true false true true = .trap .EL2 0x18 ∧
    access .EL0 1 true false false true = .trap .EL1 0x18 ∧
    access .EL1 0 true false false true = .trap .EL2 0x18 ∧
    access .EL1 1 true true true true = .value ∧
    access .EL2 1 true false true true = .value ∧
    access .EL3 0 true false true true = .value := by decide

/-! Single steps (section 2.5). -/

/-- S1. -/
theorem test_mrs_at_el1 :
    step (st v82 .EL1 false false false false [0xD5380743]) =
      .next { st v82 .EL1 false false false false [] with
        x := (Vector.replicate 31 0).set 3 0x0000000000001011, pc := 0x80004 } := by rfl

/-- S13: with destination XZR the read still traps. -/
theorem test_mrs_xzr_traps :
    step (st v84 .EL1 true false false true [0xD538075F]) =
      .fault (.systemAccessTrap .EL2 0x18 (st v84 .EL1 true false false true [0xD538075F])) := by
  rfl

/-- S21. -/
theorem test_msr_at_el3 :
    step (st v82 .EL3 false false false false [0xD5180743]) =
      .fault (.undefined .EL3 0x0 (st v82 .EL3 false false false false [0xD5180743])) := by rfl

/-- S22. -/
theorem test_msr_at_el0_under_tge :
    step (st v82 .EL0 true false true false [0xD5180743]) =
      .fault (.undefined .EL2 0x0 (st v82 .EL0 true false true false [0xD5180743])) := by rfl

/-- The first instruction after reset, placed by the host. -/
theorem test_first_instruction_after_reset :
    step (State.reset.withFetchWord 32 0xD5380740) =
      .next { State.reset with
        x := (Vector.replicate 31 0).set 0 0x1201011110000011, pc := 4 } := by rfl

/-! Witnesses. -/

theorem witness_EncodeOfDecode :
    (∃ i, decode 0xD538075F#32 = .instr i) ∧ (∃ i, decode 0xD518075F#32 = .instr i) :=
  ⟨⟨.mrsIdAa64mmfr2 .xzr, by decide⟩, ⟨.msrIdAa64mmfr2 .xzr, by decide⟩⟩

/-- Both ends of the two ranges, and the words beside them, which fall under the third clause. -/
theorem witness_DecoderVerdicts :
    (decode 0xD5380740#32 = .instr (.mrsIdAa64mmfr2 (.x 0)) ∧
      decode 0xD538075F#32 = .instr (.mrsIdAa64mmfr2 .xzr)) ∧
    (decode 0xD5180740#32 = .instr (.msrIdAa64mmfr2 (.x 0)) ∧
      decode 0xD518075F#32 = .instr (.msrIdAa64mmfr2 .xzr)) ∧
    decode 0xD538073F#32 = .notInScope 0xD538073F#32 ∧
    decode 0xD5380760#32 = .notInScope 0xD5380760#32 ∧
    decode 0xD518073F#32 = .notInScope 0xD518073F#32 ∧
    decode 0xD5180760#32 = .notInScope 0xD5180760#32 := by decide

theorem witness_SysMoveFieldsRoundTrip :
    SysRegName.WellFormed .idAa64mmfr2El1 ∧ SysRegName.WellFormed ⟨0b10, 7, 15, 15, 7⟩ := by decide

/-- One implementation for each of the clauses: EL2 with EVT; EL2 without EVT; no EL2. -/
theorem witness_EvtForcedFromArmv85 :
    (v85.archMinor ≥ 5 ∧ v85.haveEl2 = true ∧ v85.valid = true) ∧
    (let c := impl 5 true false false 0
     c.archMinor ≥ 5 ∧ c.haveEl2 = true ∧ c.haveEvt = false) ∧
    (let c := impl 5 false false true 0x1001001100000011
     c.archMinor ≥ 5 ∧ c.haveEl2 = false ∧ c.valid = true) := by decide

theorem witness_IdstExactlyFromArmv84 :
    v84.valid = true ∧ (impl 3 false false false 0x0000000000100011).valid = true := by decide

/-- A read that returns a value, on Armv8.2, on Armv8.0, and on Armv8.1 with and without EVT. -/
theorem witness_ReadValueByVersion :
    (∃ t, exec (.mrsIdAa64mmfr2 (.x 2)) (st v82 .EL2 true false true true []) = .next t) ∧
    (∃ t, exec (.mrsIdAa64mmfr2 (.x 2))
      (st (impl 0 false false false 0) .EL1 false false false false []) = .next t) ∧
    (∃ t, exec (.mrsIdAa64mmfr2 (.x 2)) (st v81 .EL2 true false false false []) = .next t) ∧
    (∃ t, exec (.mrsIdAa64mmfr2 (.x 2))
      (st (impl 1 false false false 0) .EL3 true false false false []) = .next t) ∧
    (impl 0 false false false 0).valid = true ∧ v81.valid = true ∧ v81.haveEvt = true ∧
    (impl 1 false false false 0).valid = true :=
  ⟨⟨_, rfl⟩, ⟨_, rfl⟩, ⟨_, rfl⟩, ⟨_, rfl⟩, by decide, by decide, rfl, by decide⟩

theorem witness_FieldLaws : v85.valid = true := by decide

theorem witness_PermittedValuesAreDefined :
    v84.valid = true ∧ v85.valid = true ∧
    (2#4 : Nibble) ∈ Field.BBM.permitted v84 := by decide

theorem witness_PermittedValuesAreHeld :
    v84.valid = true ∧ (1#4 : Nibble) ∈ Field.FWB.permitted v84 ∧
    v85.valid = true ∧ (2#4 : Nibble) ∈ Field.EVT.permitted v85 := by decide

theorem witness_MandatoryFeaturesByVersion :
    v81.valid = true ∧ v82.valid = true ∧ v84.valid = true ∧ v85.valid = true := by decide

/-- NV up to Armv8.4. -/
theorem witness_PermittedValuesByVersion :
    v84.archMinor ≤ 4 := by decide

theorem witness_IdsFieldMeaning :
    v82.regval.extractLsb 39 36 = 0#4 ∧ v84.regval.extractLsb 39 36 = 1#4 := by decide

theorem witness_NvFieldMeaning :
    v84.archMinor ≥ 4 ∧ (impl 3 true false false 0x0000000001000011).archMinor = 3 ∧
    (0x0000000000000011 : XWord).extractLsb 27 24 = 0#4 ∧
    (0x0000000001000011 : XWord).extractLsb 27 24 = 1#4 ∧
    (0x0001001102000011 : XWord).extractLsb 27 24 = 2#4 := by decide

theorem witness_Tid3MattersOnlyAtEl1UnderEl2 :
    ¬ (ExceptionLevel.EL0 = .EL1 ∧ true = true ∧ false = false) ∧
    access .EL1 0 true false false true ≠ access .EL1 0 true false false false := by decide

/-- Without Secure EL2 a reset may change FWB from 0 to 1. -/
theorem witness_ResetChangesAtMostFwb :
    v84.valid = true ∧ v84.AfterReset (impl 4 false false false 0x0001011100000011) :=
  ⟨by decide, 1, by decide, by decide⟩

/-- EL1 with TID3 set and EL2 in AArch32, EL2, EL3. -/
theorem witness_MrsCompletes :
    (st v82 .EL1 true true false true []).MayRead ∧
    (st v82 .EL1 true false true false []).MayRead ∧
    (st v82 .EL1 false false false true []).MayRead ∧
    (st v82 .EL2 true false true true []).MayRead ∧
    (st v82 .EL3 true false true true []).MayRead := by decide

/-- Both clauses at EL1. -/
theorem witness_MrsAtEl1 :
    (let s := st v82 .EL1 true false false true []
     s.el = .EL1 ∧ s.el2Enabled = true ∧ s.el2UsingAArch32 = false ∧ s.hcrTid3 = true) ∧
    (let s := st v82 .EL1 true true false true []
     s.el = .EL1 ∧ ¬ (s.el2Enabled = true ∧ s.el2UsingAArch32 = false ∧ s.hcrTid3 = true)) := by
  decide

/-- Both clauses at EL0. -/
theorem witness_MrsAtEl0WithIdst :
    (let s := st v84 .EL0 true false true false []
     s.el = .EL0 ∧ isIdstImplemented s.impl = true ∧
     s.el2Enabled = true ∧ s.el2UsingAArch32 = false ∧ s.hcrTge = true) ∧
    (let s := st v84 .EL0 true true true false []
     s.el = .EL0 ∧ isIdstImplemented s.impl = true ∧
     ¬ (s.el2Enabled = true ∧ s.el2UsingAArch32 = false ∧ s.hcrTge = true)) := by decide

theorem witness_ExceptionsOfTheRead :
    (∃ f, exec (.mrsIdAa64mmfr2 (.x 0)) (st v84 .EL0 false false false false []) = .fault f) ∧
    (∃ f, exec (.mrsIdAa64mmfr2 (.x 0)) (st v82 .EL0 false false false false []) = .fault f) ∧
    (ExceptionLevel.EL1 = .EL1 ∨ ExceptionLevel.EL1 = .EL2) :=
  ⟨⟨_, rfl⟩, ⟨_, rfl⟩, .inl rfl⟩

theorem witness_MrsUndefinedOnlyAtEl0WithoutIdst :
    Field.IDS.get v82.regval = 0 ∧ v82.valid = true ∧
    ∃ target ec stopped, exec (.mrsIdAa64mmfr2 (.x 0)) (st v82 .EL0 true false true false []) =
      .fault (.undefined target ec stopped) :=
  ⟨by decide, by decide, _, _, _, rfl⟩

theorem witness_UndefinedTargets :
    (st v82 .EL0 true false true false []).el = .EL0 ∧ Field.IDS.get v82.regval = 0 ∧
    (st v82 .EL3 false false false false []).el ≠ .EL0 := by decide

/-- The four rows of R108: IDS 0 on Armv8.2 and Armv8.3, IDS 1 on Armv8.4. -/
theorem witness_ExceptionClassByIds :
    Field.IDS.get v82.regval = 0 ∧ Field.IDS.get v84.regval = 1 ∧
    (st v82 .EL0 false false false false []).el = .EL0 ∧
    (let s := st v82 .EL1 true false false true []
     s.el = .EL1 ∧ s.el2Enabled = true ∧ s.el2UsingAArch32 = false ∧ s.hcrTid3 = true) ∧
    (let s := st v84 .EL1 true false false true []
     s.el = .EL1 ∧ s.el2Enabled = true ∧ s.el2UsingAArch32 = false ∧ s.hcrTid3 = true) := by decide

/-- The cell says a class for an EL0 read under either IDS value, and for an EL1 read under IDS 1. -/
theorem witness_AccessorAgreesWithIdsText :
    ((∃ f, exec (.mrsIdAa64mmfr2 .xzr) (st v82 .EL0 false false false false []) = .fault f) ∧
      idsReportedEc v82.regval .other = some 0x0) ∧
    ((∃ f, exec (.mrsIdAa64mmfr2 .xzr) (st v84 .EL0 false false false false []) = .fault f) ∧
      idsReportedEc v84.regval .other = some 0x18) ∧
    ((∃ f, exec (.mrsIdAa64mmfr2 .xzr) (st v84 .EL1 true false false true []) = .fault f) ∧
      idsReportedEc v84.regval .hcrTid = some 0x18) :=
  ⟨⟨⟨_, rfl⟩, by decide⟩, ⟨⟨_, rfl⟩, by decide⟩, ⟨_, rfl⟩, by decide⟩

/-- A valid implementation on each side of Armv8.4, whatever the level. -/
theorem witness_WhatEachLevelMayDo :
    v84.valid = true ∧ v84.archMinor ≥ 4 ∧ v82.valid = true ∧ v82.archMinor < 4 ∧
    [ExceptionLevel.EL0, .EL1, .EL2, .EL3].map (fun el => (st v84 el true false true true []).el) =
      [.EL0, .EL1, .EL2, .EL3] := by decide

theorem witness_ExceptionPriority :
    (st v84 .EL0 true false false true []).el = .EL0 ∧
    (st v82 .EL1 true false false true []).el = .EL1 := by decide

theorem witness_WhereEachInputMatters :
    ExceptionLevel.EL1 ≠ .EL0 ∧ ExceptionLevel.EL0 ≠ .EL1 ∧
    access .EL1 0 true false false true = access .EL1 1 true false true true ∧
    access .EL0 1 true true true false = access .EL0 1 true true false true := by decide

theorem witness_ZeroRegisterDestination :
    (∃ t, exec (.mrsIdAa64mmfr2 .xzr) (st v84 .EL3 true false true true []) = .next t) ∧
    (∃ f, exec (.mrsIdAa64mmfr2 .xzr) (st v84 .EL1 true false false true []) = .fault f) :=
  ⟨⟨_, rfl⟩, ⟨_, rfl⟩⟩

theorem witness_MrsFrame :
    (∃ t, exec (.mrsIdAa64mmfr2 (.x 3)) (st v82 .EL1 false false false false [0xD5380743]) =
      .next t) ∧ Reg.x 3 ≠ .x 4 ∧ Reg.xzr ≠ .x 30 :=
  ⟨⟨_, rfl⟩, by decide, by decide⟩

/-- S18: the pc wraps; a fault; a step. -/
theorem witness_ProgramCounterAdvance :
    exec (.mrsIdAa64mmfr2 .xzr)
        { st v85 .EL1 false false true false [] with pc := 0xFFFFFFFFFFFFFFFC } =
      .next { st v85 .EL1 false false true false [] with pc := 0 } ∧
    (∃ f, exec (.mrsIdAa64mmfr2 .xzr) (st v84 .EL0 true false true false []) = .fault f) ∧
    (∃ t, step (st v82 .EL1 false false false false [0xD5380743]) = .next t) :=
  ⟨rfl, ⟨_, rfl⟩, ⟨_, rfl⟩⟩

/-- Two Armv8.4 implementations with different registers and the same IDS, read from EL0. -/
theorem witness_TrappedReadRevealsOnlyIds :
    (st v84 .EL0 false false false false []).SameInputs
      (st (impl 4 false false false 0x0021011110111111) .EL0 false false false false []) ∧
    Field.IDS.get v84.regval = Field.IDS.get 0x0021011110111111 ∧
    (∃ f, exec (.mrsIdAa64mmfr2 (.x 0)) (st v84 .EL0 false false false false []) = .fault f) :=
  ⟨by decide, by decide, _, rfl⟩

theorem witness_StepRunsDecodedInstruction :
    (st v82 .EL1 false false false false [0xD5380743, 0xD5180740]).Launchable ∧
    decode 0xD5380743#32 = .instr (.mrsIdAa64mmfr2 (.x 3)) := by decide

theorem witness_ConfigurationConstantAndChecked :
    (∃ t, step (st v82 .EL1 false false false false [0xD5380743]) = .next t) ∧
    (impl 2 false false false 0).valid = false :=
  ⟨⟨_, rfl⟩, by decide⟩

theorem witness_MisalignedPcRefused :
    let s := { st v82 .EL1 false false false false [0xD5380743] with pc := 0x80002 }
    s.impl.valid = true ∧ s.pc.toNat % 4 ≠ 0 := by decide

/-- The NOP of P7. -/
theorem witness_ForeignWordRefused :
    0xD503201F#32 &&& 0xFFFFFFE0#32 ≠ 0xD5380740#32 ∧
    0xD503201F#32 &&& 0xFFFFFFE0#32 ≠ 0xD5180740#32 ∧
    (st v82 .EL1 false false false false [0xD503201F]).Launchable := by decide

theorem witness_StepKeepsInputs :
    ∃ t, step (st v82 .EL2 true false true true [0xD5380743]) = .next t := ⟨_, rfl⟩

theorem witness_StepKeepsLaunchable :
    (st v82 .EL2 true false true true [0xD5380743]).Launchable ∧
    ∃ t, step (st v82 .EL2 true false true true [0xD5380743]) = .next t := ⟨by decide, _, rfl⟩

/-- P6: a read, then the write form. -/
theorem witness_ExceptionsArePrecise :
    (∃ f, exec (.msrIdAa64mmfr2 (.x 0)) (st v82 .EL1 false false false false []) = .fault f) ∧
    ∃ f, runFor 2 (st v82 .EL1 false false false false [0xD5380740, 0xD5180740]) = .fault f :=
  ⟨⟨_, rfl⟩, ⟨_, rfl⟩⟩

theorem witness_RunAdvances :
    ∃ t, runFor 2 (st v82 .EL1 false false false false [0xD5380740, 0xD538075F]) = .next t :=
  ⟨_, rfl⟩

theorem witness_ReadsOfOneRunAgree :
    ∃ t s' t', runFor 1 (st v82 .EL1 false false false false [0xD5380743]) = .next t ∧
      exec (.mrsIdAa64mmfr2 (.x 3)) (st v82 .EL1 false false false false [0xD5380743]) = .next s' ∧
      exec (.mrsIdAa64mmfr2 (.x 4)) t = .next t' :=
  ⟨_, _, _, rfl, rfl, rfl⟩

theorem witness_RunOfReadsCompletes :
    let s := st v82 .EL2 true false true true [0xD5380741, 0xD538075F]
    s.Launchable ∧ s.MayRead ∧
    ∀ w ∈ s.program, ∃ rt, decode w = .instr (.mrsIdAa64mmfr2 rt) := by
  refine ⟨by decide, by decide, fun w hw => ?_⟩
  have : w = 0xD5380741 ∨ w = 0xD538075F := by simpa [st] using hw
  rcases this with rfl | rfl
  · exact ⟨.x 1, by decide⟩
  · exact ⟨.xzr, by decide⟩

/-- A launch state for each of the three ends. -/
theorem witness_RunEndsInOneOfThreeWays :
    (st v82 .EL1 false false false false [0xD5380740]).Launchable ∧
    (∃ t, runProgram (st v82 .EL1 false false false false [0xD5380740]) = .next t) ∧
    (∃ f, runProgram (st v82 .EL0 false false false false [0xD5380740]) = .fault f) ∧
    (∃ r, runProgram (st v82 .EL1 false false false false [0xD503201F]) = .refused r) :=
  ⟨by decide, ⟨_, rfl⟩, ⟨_, rfl⟩, ⟨_, rfl⟩⟩

/-- P7 and P6: one read, then a foreign word, or the write form. -/
theorem witness_RunStopsAtFirstStop :
    let s := st v82 .EL1 false false false false ([0xD5380740] ++ 0xD503201F :: [])
    s.Launchable ∧ s.MayRead ∧ decode 0xD5380740#32 = .instr (.mrsIdAa64mmfr2 (.x 0)) ∧
    decode 0xD503201F#32 = .notInScope 0xD503201F#32 ∧
    decode 0xD5180740#32 = .instr (.msrIdAa64mmfr2 (.x 0)) := by decide

/-- Two PEs with different registers. -/
theorem witness_PesAreIndependent :
    ∃ pes', stepPe [st v84 .EL0 false false false false [0xD5380740],
      st v82 .EL1 false false false false [0xD5380743]] 1 = some (.next pes') := ⟨_, rfl⟩

end Sys2Proof.Tests
end

section
/-! SUPPORT. Proofs of the statements about the register's fields and about `HCR_EL2.TID3`
(10_state.md): the version that counts at the thresholds the source names, the fields' presence and
permitted values, and the access rule at EL1. -/

namespace Sys2Proof

/-! The version that counts (R7): capping at 5 moves no threshold that the source names. -/

theorem Implementation.version_eq_min (c : Implementation) : c.version = min c.archMinor 5 := rfl

theorem Implementation.le_version_iff (c : Implementation) {n : Nat} (hn : n ≤ 5) :
    n ≤ c.version ↔ n ≤ c.archMinor := by
  rw [c.version_eq_min, le_min_iff, and_iff_left hn]

theorem Implementation.version_lt_iff (c : Implementation) {n : Nat} (hn : n ≤ 5) :
    c.version < n ↔ c.archMinor < n := by
  rw [← not_le, c.le_version_iff hn, not_le]

theorem Implementation.version_eq_archMinor {c : Implementation} (h : c.archMinor ≤ 5) :
    c.version = c.archMinor := by
  rw [c.version_eq_min, min_eq_left h]

/-! The fields at each threshold. -/

theorem Field.present_E0PD_iff (c : Implementation) :
    Field.E0PD.present c = true ↔ 5 ≤ c.archMinor := by
  simp [Field.present, c.le_version_iff]

theorem Field.present_iff_from4 (c : Implementation) :
    ∀ f ∈ [Field.BBM, .TTL, .FWB, .IDS, .AT, .ST], f.present c = true ↔ 4 ≤ c.archMinor := by
  simp [Field.present, c.le_version_iff]

theorem Field.present_iff_from3 (c : Implementation) :
    ∀ f ∈ [Field.NV, .CCIDX], f.present c = true ↔ 3 ≤ c.archMinor := by
  simp [Field.present, c.le_version_iff]

theorem Field.present_iff_from2 (c : Implementation) :
    ∀ f ∈ [Field.VARange, .IESB, .LSM, .UAO, .CnP], f.present c = true ↔ 2 ≤ c.archMinor := by
  simp [Field.present, c.le_version_iff]

/-- ST by Secure EL2 (R40): its rule asks for the version from below. -/
theorem Field.permitted_ST (c : Implementation) :
    Field.ST.permitted c =
      if c.archMinor < 4 then [0#4] else if c.haveSecEl2 = true then [1#4] else [0#4, 1#4] := by
  simp only [Field.permitted, c.version_lt_iff (n := 4) (by decide)]

/-- NV up to Armv8.4 (R43), where the strictness switch of R44 has no part. -/
theorem Field.permitted_NV_of_le_four {c : Implementation} (h : c.archMinor ≤ 4) :
    Field.NV.permitted c =
      if c.archMinor ≤ 2 then [0#4]
      else if c.archMinor = 3 then (if c.haveEl2 = true then [1#4] else [0#4])
      else (if c.haveEl2 = true then [2#4] else [0#4]) := by
  simp only [Field.permitted, Implementation.version_eq_archMinor (h.trans (by decide))]
  by_cases h2 : c.archMinor ≤ 2
  · rw [if_pos h2, if_pos h2]
  · by_cases h3 : c.archMinor = 3
    · rw [if_neg h2, if_neg h2, if_pos h3, if_pos h3]
    · have h4 : c.archMinor = 4 := by omega
      rw [if_neg h2, if_neg h2, if_neg h3, if_neg h3, if_pos h4]

/-- Settles O11: the slices are `Field.get` at the positions of `Field.lo`, and each existence
condition is the uncapped threshold. -/
theorem fieldLayout : Obligations.FieldLayout := by
  unfold Obligations.FieldLayout
  refine ⟨fun v => ?_, fun c => ?_⟩
  · exact ⟨rfl, rfl, rfl, rfl, rfl, rfl, rfl, rfl, rfl, rfl, rfl, rfl, rfl, rfl, rfl, rfl⟩
  · exact ⟨Field.present_E0PD_iff c, Iff.rfl, rfl, Field.present_iff_from4 c,
      Field.present_iff_from3 c, Field.present_iff_from2 c⟩

/-- Settles O17: one threshold for nine of the fields, ST and NV by their own rules. -/
theorem permittedValuesByVersion : Obligations.PermittedValuesByVersion := by
  unfold Obligations.PermittedValuesByVersion
  intro c
  have from5 := c.le_version_iff (n := 5) le_rfl
  have from4 := c.le_version_iff (n := 4) (by decide)
  have from3 := c.le_version_iff (n := 3) (by decide)
  have from2 := c.le_version_iff (n := 2) (by decide)
  refine ⟨rfl, ?E0PD, ?BBM, ?TTL, ?IDS, ?AT, Field.permitted_ST c, Field.permitted_NV_of_le_four,
    ?CCIDX, ?VARange, ?UAO, ?CnP⟩
  case E0PD => simp only [Field.permitted, from5, ge_iff_le]
  case BBM | TTL | IDS | AT => simp only [Field.permitted, from4, ge_iff_le]
  case CCIDX => simp only [Field.permitted, from3, ge_iff_le]
  case VARange | UAO | CnP => simp only [Field.permitted, from2, ge_iff_le]

end Sys2Proof

namespace Sys2Proof.Machine

/-! The access rule (R101) and `HCR_EL2.TID3` (R63). -/

/-- At EL1 the access is the trap to EL2 or the value. -/
theorem access_EL1 (ids : Nibble) (en a32 tge tid3 : Bool) :
    access .EL1 ids en a32 tge tid3 =
      if en && !a32 && tid3 then .trap .EL2 0x18 else .value := rfl

theorem access_tid3_irrelevant {el : ExceptionLevel} {en a32 : Bool}
    (h : ¬ (el = .EL1 ∧ en = true ∧ a32 = false)) (ids : Nibble) (tge tid3 tid3' : Bool) :
    access el ids en a32 tge tid3 = access el ids en a32 tge tid3' := by
  cases el with
  | EL0 | EL2 | EL3 => rfl
  | EL1 =>
    have hTraps : (en && !a32) = false := by simpa using h
    rw [access_EL1, access_EL1, hTraps, Bool.false_and, Bool.false_and]

/-- Settles O38: TID3 stands only in the EL1 branch, behind the test that EL2 is enabled and using
AArch64. -/
theorem tid3MattersOnlyAtEl1UnderEl2 : Obligations.Tid3MattersOnlyAtEl1UnderEl2 := by
  unfold Obligations.Tid3MattersOnlyAtEl1UnderEl2
  intro el ids en a32 tge tid3 tid3'
  refine ⟨fun h => access_tid3_irrelevant h ids tge tid3 tid3', ?_⟩
  rintro ⟨rfl, rfl, rfl⟩
  cases tid3 <;> simp [access_EL1]

end Sys2Proof.Machine
end

section
/-! SUPPORT. Proof of the statement about the feature ID space (20_memory.md section 1): membership
by the numbers of a name's parts, and the list of the space's names. -/

namespace Sys2Proof

theorem SysRegName.inFeatureIdSpace_iff (n : SysRegName) :
    n.inFeatureIdSpace = true ↔
      n.op0.toNat = 3 ∧ (n.op1.toNat = 0 ∨ n.op1.toNat = 1 ∨ n.op1.toNat = 3) ∧
      n.CRn.toNat = 0 ∧ n.CRm.toNat ≤ 7 ∧ n.op2.toNat ≤ 7 := by
  simp [SysRegName.inFeatureIdSpace, ← BitVec.toNat_inj, and_assoc, or_assoc]

/-- The name with the `op0` and `CRn` of the feature ID space (R76) and the given `op1`, `CRm` and
`op2`; it lies in the space exactly if `op1` is 0, 1 or 3. -/
def featureIdName (p : BitVec 3 × Fin 8 × Fin 8) : SysRegName :=
  { op0 := 3#2, op1 := p.1, CRn := 0#4, CRm := .ofFin (p.2.1.castLE (by decide)),
    op2 := .ofFin p.2.2 }

/-- The names of the feature ID space (R76): 3 values of `op1`, 8 of `CRm`, 8 of `op2`. -/
def featureIdNames : List SysRegName :=
  ([0#3, 1#3, 3#3] ×ˢ List.finRange 8 ×ˢ List.finRange 8).map featureIdName

theorem featureIdName_injective : Function.Injective featureIdName := by
  rintro ⟨op1, m, o⟩ ⟨op1', m', o'⟩ h
  simpa [featureIdName] using h

theorem nodup_featureIdNames : featureIdNames.Nodup :=
  .map featureIdName_injective <|
    .product (by decide) <| .product (List.nodup_finRange 8) (List.nodup_finRange 8)

theorem length_featureIdNames : featureIdNames.length = 192 := by
  simp [featureIdNames, List.length_product]

theorem featureIdName_mem_iff (p : BitVec 3 × Fin 8 × Fin 8) :
    featureIdName p ∈ featureIdNames ↔ p.1 ∈ [0#3, 1#3, 3#3] := by
  obtain ⟨op1, m, o⟩ := p
  rw [featureIdNames, List.mem_map_of_injective featureIdName_injective, List.mem_product,
    List.mem_product]
  simp only [List.mem_finRange, and_true]

theorem featureIdName_inFeatureIdSpace_iff (p : BitVec 3 × Fin 8 × Fin 8) :
    (featureIdName p).inFeatureIdSpace = true ↔ p.1 ∈ [0#3, 1#3, 3#3] := by
  have hCRm : (p.2.1 : Nat) ≤ 7 := Nat.le_of_lt_succ p.2.1.isLt
  have hop2 : (p.2.2 : Nat) ≤ 7 := Nat.le_of_lt_succ p.2.2.isLt
  simp [SysRegName.inFeatureIdSpace_iff, featureIdName, ← BitVec.toNat_inj, hCRm, hop2]

theorem exists_featureIdName_eq {n : SysRegName} (h : n.inFeatureIdSpace = true) :
    ∃ p, featureIdName p = n := by
  obtain ⟨hop0, -, hCRn, hCRm, hop2⟩ := n.inFeatureIdSpace_iff.1 h
  refine ⟨(n.op1, ⟨n.CRm.toNat, Nat.lt_succ_of_le hCRm⟩,
    ⟨n.op2.toNat, Nat.lt_succ_of_le hop2⟩), ?_⟩
  obtain ⟨op0, op1, CRn, CRm, op2⟩ := n
  obtain rfl : op0 = 3#2 := BitVec.eq_of_toNat_eq hop0
  obtain rfl : CRn = 0#4 := BitVec.eq_of_toNat_eq hCRn
  rfl

theorem mem_featureIdNames_iff (n : SysRegName) :
    n ∈ featureIdNames ↔ n.inFeatureIdSpace = true := by
  constructor
  · intro hmem
    obtain ⟨p, -, rfl⟩ := List.mem_map.1 hmem
    exact (featureIdName_inFeatureIdSpace_iff p).2 ((featureIdName_mem_iff p).1 hmem)
  · intro hspace
    obtain ⟨p, rfl⟩ := exists_featureIdName_eq hspace
    exact (featureIdName_mem_iff p).2 ((featureIdName_inFeatureIdSpace_iff p).1 hspace)

/-- Settles O9: `featureIdNames` is the list. -/
theorem featureIdSpaceNames : Obligations.FeatureIdSpaceNames := by
  unfold Obligations.FeatureIdSpaceNames
  exact ⟨SysRegName.inFeatureIdSpace_iff, featureIdNames, nodup_featureIdNames,
    length_featureIdNames, mem_featureIdNames_iff⟩

end Sys2Proof
end

section
/-! SUPPORT. Proof of the statement about a read at EL1 (60_exceptions.md): what the access rule
answers there, and the outcome of the read that each answer gives. -/

namespace Sys2Proof.Machine

/-- Where the access returns the value, the read writes its destination and advances the pc. -/
theorem exec_mrs_of_access_value {s : State} (h : accessOf s = .value) (rt : Reg) :
    exec (.mrsIdAa64mmfr2 rt) s = .next (advancePc (writeX rt s.impl.regval s)) := by
  simp only [exec, execMrsIdAa64mmfr2, readThroughAccess, h, readIdRegister]

/-- Where the access is trapped, the read is the System access trap, and writes nothing. -/
theorem exec_mrs_of_access_trap {s : State} {target : ExceptionLevel} {ec : Nat}
    (h : accessOf s = .trap target ec) (rt : Reg) :
    exec (.mrsIdAa64mmfr2 rt) s = .fault (.systemAccessTrap target ec s) := by
  simp only [exec, execMrsIdAa64mmfr2, readThroughAccess, h, raiseSystemAccessTrap]

/-- The access rule on a state at EL1 (R101), in which IDS has no part. -/
theorem accessOf_of_EL1 {s : State} (h : s.el = .EL1) :
    accessOf s =
      if s.el2Enabled = true ∧ s.el2UsingAArch32 = false ∧ s.hcrTid3 = true then .trap .EL2 0x18
      else .value := by
  rw [accessOf, h, access_EL1]
  simp only [Bool.and_eq_true, Bool.not_eq_true', and_assoc]

/-- Settles O28: at EL1 the access is the trap under TID3 and the value otherwise, and the read
follows the access. -/
theorem mrsAtEl1 : Obligations.MrsAtEl1 := by
  unfold Obligations.MrsAtEl1
  intro rt s hEl1
  have hAccess := accessOf_of_EL1 hEl1
  constructor
  · intro hTraps
    rw [if_pos hTraps] at hAccess
    exact ⟨s, exec_mrs_of_access_trap hAccess rt⟩
  · intro hNoTrap
    rw [if_neg hNoTrap] at hAccess
    refine ⟨_, exec_mrs_of_access_value hAccess rt, ?_⟩
    rintro n rfl
    rw [readX_advancePc, readX_writeX_same]

end Sys2Proof.Machine
end

section
/-! SUPPORT. Proofs of the statements about words, bytes and the decoder (20_memory.md section 2,
30_encoding.md). The move word of R90 is read as a number, from which its fields follow by
arithmetic; the decoder is the inverse of the encoder, and every other statement follows from
that. -/

namespace Sys2Proof

/-! Concatenation and extraction as numbers. -/

theorem toNat_append_eq_add {m n : Nat} (x : BitVec m) (y : BitVec n) :
    (x ++ y).toNat = x.toNat * 2 ^ n + y.toNat := by
  rw [BitVec.toNat_append, ← Nat.shiftLeft_add_eq_or_of_lt y.isLt, Nat.shiftLeft_eq]

theorem extractLsb'_eq_iff_toNat {n start len : Nat} (w : BitVec n) (f : BitVec len) :
    w.extractLsb' start len = f ↔ w.toNat / 2 ^ start % 2 ^ len = f.toNat := by
  rw [← BitVec.toNat_inj, BitVec.extractLsb'_toNat, Nat.shiftRight_eq_div_pow]

/-! Bytes (R79). -/

theorem toNat_wordOfBytes (b0 b1 b2 b3 : Byte) :
    (wordOfBytes b0 b1 b2 b3).toNat =
      b0.toNat + 256 * b1.toNat + 65536 * b2.toNat + 16777216 * b3.toNat := by
  rw [wordOfBytes, toNat_append_eq_add, toNat_append_eq_add, toNat_append_eq_add]
  omega

theorem bytesOfWord_wordOfBytes (b0 b1 b2 b3 : Byte) :
    bytesOfWord (wordOfBytes b0 b1 b2 b3) = [b0, b1, b2, b3] := by
  have hb0 := b0.isLt
  have hb1 := b1.isLt
  have hb2 := b2.isLt
  have hb3 := b3.isLt
  simp only [bytesOfWord, List.cons.injEq, and_true, extractLsb'_eq_iff_toNat, toNat_wordOfBytes]
  omega

/-- A word is made of its four bytes. -/
theorem wordOfBytes_extract (w : InstrWord) :
    wordOfBytes (w.extractLsb' 0 8) (w.extractLsb' 8 8) (w.extractLsb' 16 8)
      (w.extractLsb' 24 8) = w := by
  have hw := w.isLt
  rw [← BitVec.toNat_inj, toNat_wordOfBytes]
  simp only [BitVec.extractLsb'_toNat, Nat.shiftRight_eq_div_pow]
  omega

/-- Settles O8: both directions and the number are arithmetic to base 256. -/
theorem wordBytesLittleEndian : Obligations.WordBytesLittleEndian := by
  unfold Obligations.WordBytesLittleEndian
  intro b0 b1 b2 b3 w
  exact ⟨bytesOfWord_wordOfBytes b0 b1 b2 b3, toNat_wordOfBytes b0 b1 b2 b3, wordOfBytes_extract w⟩

/-! The System register move word (R90). -/

/-- The move word as a number, one summand per field. -/
theorem toNat_sysMoveWord (l : BitVec 1) (n : SysRegName) (rt : BitVec 5) :
    (sysMoveWord l n rt).toNat =
      0b1101010100 * 2 ^ 22 + l.toNat * 2 ^ 21 + 2 ^ 20 + n.op0.toNat % 2 * 2 ^ 19 +
        n.op1.toNat * 2 ^ 16 + n.CRn.toNat * 2 ^ 12 + n.CRm.toNat * 2 ^ 8 + n.op2.toNat * 2 ^ 5 +
        rt.toNat := by
  rw [sysMoveWord]
  repeat rw [toNat_append_eq_add]
  simp only [BitVec.extractLsb'_toNat, Nat.shiftRight_zero, BitVec.toNat_ofNat]
  omega

/-- The fields of a move word are at the positions of R90. -/
theorem extractLsb'_sysMoveWord (l : BitVec 1) (n : SysRegName) (rt : BitVec 5) :
    let w := sysMoveWord l n rt
    w.extractLsb' 22 10 = 0b1101010100#10 ∧ w.extractLsb' 21 1 = l ∧ w.extractLsb' 20 1 = 1#1 ∧
    w.extractLsb' 19 1 = n.op0.extractLsb' 0 1 ∧ w.extractLsb' 16 3 = n.op1 ∧
    w.extractLsb' 12 4 = n.CRn ∧ w.extractLsb' 8 4 = n.CRm ∧ w.extractLsb' 5 3 = n.op2 ∧
    w.extractLsb' 0 5 = rt := by
  have hl := l.isLt
  have hop1 := n.op1.isLt
  have hCRn := n.CRn.isLt
  have hCRm := n.CRm.isLt
  have hop2 := n.op2.isLt
  have hrt := rt.isLt
  simp only [extractLsb'_eq_iff_toNat, toNat_sysMoveWord, BitVec.extractLsb'_toNat,
    Nat.shiftRight_zero, BitVec.toNat_ofNat]
  omega

/-- The fixed high bit of `op0` and its low bit are `op0`, for a name the layout can carry. -/
theorem SysRegName.WellFormed.op0_eq {n : SysRegName} (h : n.WellFormed) :
    1#1 ++ n.op0.extractLsb' 0 1 = n.op0 := by
  have append_extract_of_msb : ∀ b : BitVec 2, b.msb = true → 1#1 ++ b.extractLsb' 0 1 = b := by
    decide
  exact append_extract_of_msb n.op0 h

theorem sysMoveOf_sysMoveWord (l : BitVec 1) {n : SysRegName} (h : n.WellFormed) (rt : BitVec 5) :
    sysMoveOf (sysMoveWord l n rt) = some { l := l, name := n, rt := rt } := by
  obtain ⟨hfixed, hl, hbit20, ho0, hop1, hCRn, hCRm, hop2, hrt⟩ := extractLsb'_sysMoveWord l n rt
  rw [sysMoveOf, if_pos ⟨hfixed, hbit20⟩, hl, ho0, hop1, hCRn, hCRm, hop2, hrt, h.op0_eq]

/-- The layout covers the word: a word with fields is the move word made of them. -/
theorem sysMoveWord_of_sysMoveOf {w : InstrWord} {m : SysMove} (h : sysMoveOf w = some m) :
    sysMoveWord m.l m.name m.rt = w := by
  unfold sysMoveOf at h
  split at h
  case isFalse => cases h
  case isTrue hfixed =>
    cases h
    have hw := w.isLt
    simp only [extractLsb'_eq_iff_toNat, BitVec.toNat_ofNat] at hfixed
    rw [← BitVec.toNat_inj, toNat_sysMoveWord, toNat_append_eq_add]
    simp only [BitVec.extractLsb'_toNat, Nat.shiftRight_eq_div_pow]
    omega

theorem sysMoveOf_eq_some_iff {l : BitVec 1} {n : SysRegName} (h : n.WellFormed) {rt : BitVec 5}
    {w : InstrWord} :
    sysMoveOf w = some { l := l, name := n, rt := rt } ↔ sysMoveWord l n rt = w := by
  constructor
  · exact sysMoveWord_of_sysMoveOf
  · rintro rfl
    exact sysMoveOf_sysMoveWord l h rt

/-- Settles O7. -/
theorem sysMoveFieldsRoundTrip : Obligations.SysMoveFieldsRoundTrip := by
  unfold Obligations.SysMoveFieldsRoundTrip
  exact fun l _ rt h => sysMoveOf_sysMoveWord l h rt

/-! The encoder and the decoder's two patterns. -/

theorem toNat_encode_mrs (rt : Reg) :
    (encode (.mrsIdAa64mmfr2 rt)).toNat = 0xD5380740 + rt.toRt.toNat :=
  toNat_sysMoveWord 1 .idAa64mmfr2El1 rt.toRt

theorem toNat_encode_msr (rt : Reg) :
    (encode (.msrIdAa64mmfr2 rt)).toNat = 0xD5180740 + rt.toRt.toNat :=
  toNat_sysMoveWord 0 .idAa64mmfr2El1 rt.toRt

/-- A word matches a pattern exactly if it is the pattern plus its own `Rt` field. -/
theorem masked_eq_iff_toNat {w p : InstrWord} (hp : p.extractLsb' 0 5 = 0#5) :
    w &&& 0xFFFFFFE0#32 = p ↔ p.toNat + (w.extractLsb' 0 5).toNat = w.toNat := by
  have hw := w.isLt
  rw [masked_eq_iff w p hp, extractLsb'_eq_iff_toNat, BitVec.extractLsb'_toNat,
    BitVec.extractLsb'_toNat, Nat.shiftRight_eq_div_pow, Nat.shiftRight_zero]
  rw [extractLsb'_eq_iff_toNat] at hp
  simp only [BitVec.toNat_ofNat] at hp
  omega

theorem masked_eq_mrs_iff (w : InstrWord) :
    w &&& 0xFFFFFFE0#32 = 0xD5380740#32 ↔
      encode (.mrsIdAa64mmfr2 (Reg.ofRt (w.extractLsb' 0 5))) = w := by
  rw [masked_eq_iff_toNat (by decide), ← BitVec.toNat_inj, toNat_encode_mrs, Reg.toRt_ofRt]
  rfl

theorem masked_eq_msr_iff (w : InstrWord) :
    w &&& 0xFFFFFFE0#32 = 0xD5180740#32 ↔
      encode (.msrIdAa64mmfr2 (Reg.ofRt (w.extractLsb' 0 5))) = w := by
  rw [masked_eq_iff_toNat (by decide), ← BitVec.toNat_inj, toNat_encode_msr, Reg.toRt_ofRt]
  rfl

theorem rt_encode_mrs (rt : Reg) : (encode (.mrsIdAa64mmfr2 rt)).extractLsb' 0 5 = rt.toRt := by
  obtain ⟨-, -, -, -, -, -, -, -, hrt⟩ := extractLsb'_sysMoveWord 1 .idAa64mmfr2El1 rt.toRt
  exact hrt

theorem rt_encode_msr (rt : Reg) : (encode (.msrIdAa64mmfr2 rt)).extractLsb' 0 5 = rt.toRt := by
  obtain ⟨-, -, -, -, -, -, -, -, hrt⟩ := extractLsb'_sysMoveWord 0 .idAa64mmfr2El1 rt.toRt
  exact hrt

@[simp] theorem decode_encode (i : Instr) : decode (encode i) = .instr i := by
  cases i with
  | mrsIdAa64mmfr2 rt =>
    have hrt := rt_encode_mrs rt
    have hmask := (masked_eq_mrs_iff (encode (.mrsIdAa64mmfr2 rt))).2 (by rw [hrt, Reg.ofRt_toRt])
    rw [decode, if_pos hmask, hrt, Reg.ofRt_toRt]
  | msrIdAa64mmfr2 rt =>
    have hrt := rt_encode_msr rt
    have hmask := (masked_eq_msr_iff (encode (.msrIdAa64mmfr2 rt))).2 (by rw [hrt, Reg.ofRt_toRt])
    rw [decode, if_neg (by rw [hmask]; decide), if_pos hmask, hrt, Reg.ofRt_toRt]

theorem encode_of_decode {w : InstrWord} {i : Instr} (h : decode w = .instr i) : encode i = w := by
  unfold decode at h
  split at h
  case isTrue hmrs =>
    cases h
    exact (masked_eq_mrs_iff w).1 hmrs
  case isFalse =>
    split at h
    case isTrue hmsr =>
      cases h
      exact (masked_eq_msr_iff w).1 hmsr
    case isFalse => cases h

/-- The decoder is the inverse of the encoder. -/
theorem decode_eq_instr_iff {w : InstrWord} {i : Instr} : decode w = .instr i ↔ encode i = w := by
  constructor
  · exact encode_of_decode
  · rintro rfl
    exact decode_encode i

theorem decode_eq_notInScope_of_masked_ne {w : InstrWord}
    (hmrs : w &&& 0xFFFFFFE0#32 ≠ 0xD5380740#32) (hmsr : w &&& 0xFFFFFFE0#32 ≠ 0xD5180740#32) :
    decode w = .notInScope w := by
  rw [decode, if_neg hmrs, if_neg hmsr]

/-- A word that is no instruction's is outside the spec. -/
theorem decode_eq_notInScope_of_encode_ne {w : InstrWord} (h : ∀ i, encode i ≠ w) :
    decode w = .notInScope w :=
  decode_eq_notInScope_of_masked_ne (mt (masked_eq_mrs_iff w).1 (h _))
    (mt (masked_eq_msr_iff w).1 (h _))

/-- Settles O2: the bytes of a word make it again, and the decoder inverts the encoder. -/
theorem decodeOfEncode : Obligations.DecodeOfEncode := by
  unfold Obligations.DecodeOfEncode
  refine fun i rest => ⟨decode_encode i, ?_⟩
  simp only [encodeBytes, bytesOfWord, List.cons_append, List.nil_append, decodeBytes,
    wordOfBytes_extract, decode_encode]

/-- Settles O3. -/
theorem encodeOfDecode : Obligations.EncodeOfDecode := by
  unfold Obligations.EncodeOfDecode
  exact fun _ _ => encode_of_decode

/-- Settles O6: both sides say that the word is the move word of those fields. -/
theorem decodedWordNamesTheRegister : Obligations.DecodedWordNamesTheRegister := by
  unfold Obligations.DecodedWordNamesTheRegister
  have hname : SysRegName.WellFormed .idAa64mmfr2El1 := by decide
  exact fun w rt => ⟨decode_eq_instr_iff.trans (sysMoveOf_eq_some_iff hname).symm,
    decode_eq_instr_iff.trans (sysMoveOf_eq_some_iff hname).symm⟩

theorem Reg.toNat_toRt_x (n : Fin 31) : (Reg.x n).toRt.toNat = n.val := by
  rw [Reg.toRt, BitVec.toNat_ofNat, Nat.mod_eq_of_lt (n.isLt.trans (by decide))]

/-- Settles O4: the fields are those of the move word with the name of R89. -/
theorem readWordLayout : Obligations.ReadWordLayout := by
  unfold Obligations.ReadWordLayout
  refine ⟨fun rt => ?_, Reg.toNat_toRt_x, rfl, fun w => ?_⟩
  · obtain ⟨hfixed, hl, hbit20, ho0, hop1, hCRn, hCRm, hop2, hrt⟩ :=
      extractLsb'_sysMoveWord 1 .idAa64mmfr2El1 rt.toRt
    exact ⟨hfixed, hl, hbit20, ho0, hop1, hCRn, hCRm, hop2, hrt, toNat_encode_mrs rt⟩
  · rw [masked_eq_mrs_iff]
    constructor
    · exact fun h => ⟨_, h.symm⟩
    · rintro ⟨rt, rfl⟩
      rw [rt_encode_mrs, Reg.ofRt_toRt]

/-- The register named by a word's offset from the first of its 32 has that offset as number. -/
theorem Reg.toNat_toRt_ofRt_ofNat {k : Nat} (h : k < 32) :
    (Reg.ofRt (BitVec.ofNat 5 k)).toRt.toNat = k := by
  rw [Reg.toRt_ofRt, BitVec.toNat_ofNat, Nat.mod_eq_of_lt h]

/-- Settles O5: the words in scope are those of the encoder, which fill the two ranges. -/
theorem decoderVerdicts : Obligations.DecoderVerdicts := by
  unfold Obligations.DecoderVerdicts
  refine fun w => ⟨?_, ?_, ?_⟩
  · rintro ⟨hlo, hhi⟩
    have hrt := Reg.toNat_toRt_ofRt_ofNat (k := w.toNat - 0xD5380740) (by omega)
    refine ⟨_, decode_eq_instr_iff.2 (BitVec.eq_of_toNat_eq ?_), hrt⟩
    rw [toNat_encode_mrs, hrt, Nat.add_sub_cancel' hlo]
  · rintro ⟨hlo, hhi⟩
    have hrt := Reg.toNat_toRt_ofRt_ofNat (k := w.toNat - 0xD5180740) (by omega)
    refine ⟨_, decode_eq_instr_iff.2 (BitVec.eq_of_toNat_eq ?_), hrt⟩
    rw [toNat_encode_msr, hrt, Nat.add_sub_cancel' hlo]
  · rintro ⟨hmrs, hmsr⟩
    refine decode_eq_notInScope_of_encode_ne fun i hi => ?_
    cases i with
    | mrsIdAa64mmfr2 rt =>
      have hrt := rt.toRt.isLt
      rw [← hi, toNat_encode_mrs] at hmrs
      omega
    | msrIdAa64mmfr2 rt =>
      have hrt := rt.toRt.isLt
      rw [← hi, toNat_encode_msr] at hmsr
      omega

/-- Settles O1: the four words in scope are their instructions' words, the two others are neither
pattern under the mask. -/
theorem sampleWordsDecode : Obligations.SampleWordsDecode := by
  unfold Obligations.SampleWordsDecode
  exact ⟨decode_encode (.mrsIdAa64mmfr2 (.x 0)), decode_encode (.mrsIdAa64mmfr2 (.x 30)),
    decode_encode (.mrsIdAa64mmfr2 .xzr), decode_encode (.msrIdAa64mmfr2 (.x 3)),
    decode_eq_notInScope_of_masked_ne (by decide) (by decide),
    decode_eq_notInScope_of_masked_ne (by decide) (by decide)⟩

/-- Settles O10. -/
theorem registerNameInFeatureIdSpace : Obligations.RegisterNameInFeatureIdSpace := by
  unfold Obligations.RegisterNameInFeatureIdSpace
  exact ⟨rfl, (SysRegName.inFeatureIdSpace_iff _).2 (by decide)⟩

end Sys2Proof
end

section
/-! SUPPORT. Proofs of the statements about the register's value (10_state.md and
40_mrs_id_aa64mmfr2.md section 2): the value is the concatenation of its fields, validity is
membership of each field in its permitted set plus the EVT line of R26, and each statement reads the
permitted sets of the fields it names. -/

namespace Sys2Proof

/-! A value and its sixteen fields (R103). -/

theorem Field.forall_iff {P : Field → Prop} :
    (∀ f, P f) ↔ P .E0PD ∧ P .EVT ∧ P .BBM ∧ P .TTL ∧ P .RES47_44 ∧ P .FWB ∧ P .IDS ∧ P .AT ∧
      P .ST ∧ P .NV ∧ P .CCIDX ∧ P .VARange ∧ P .IESB ∧ P .LSM ∧ P .UAO ∧ P .CnP := by
  constructor
  · exact fun h => ⟨h _, h _, h _, h _, h _, h _, h _, h _, h _, h _, h _, h _, h _, h _, h _, h _⟩
  · intro h f
    cases f <;> simp only [h]

theorem Field.toNat_get (f : Field) (v : XWord) : (f.get v).toNat = v.toNat / 2 ^ f.lo % 16 := by
  rw [Field.get, BitVec.extractLsb'_toNat, Nat.shiftRight_eq_div_pow]

theorem Field.toNat_concat (g : Field → Nibble) :
    (Field.concat g).toNat =
      (g .E0PD).toNat * 2 ^ 60 + (g .EVT).toNat * 2 ^ 56 + (g .BBM).toNat * 2 ^ 52 +
      (g .TTL).toNat * 2 ^ 48 + (g .RES47_44).toNat * 2 ^ 44 + (g .FWB).toNat * 2 ^ 40 +
      (g .IDS).toNat * 2 ^ 36 + (g .AT).toNat * 2 ^ 32 + (g .ST).toNat * 2 ^ 28 +
      (g .NV).toNat * 2 ^ 24 + (g .CCIDX).toNat * 2 ^ 20 + (g .VARange).toNat * 2 ^ 16 +
      (g .IESB).toNat * 2 ^ 12 + (g .LSM).toNat * 2 ^ 8 + (g .UAO).toNat * 2 ^ 4 +
      (g .CnP).toNat := by
  rw [Field.concat]
  repeat rw [toNat_append_eq_add]
  omega

theorem Field.get_concat (g : Field → Nibble) (f : Field) : f.get (Field.concat g) = g f := by
  have hlt : ∀ f, (g f).toNat < 16 := fun f => (g f).isLt
  rw [Field.forall_iff] at hlt
  rw [← BitVec.toNat_inj, Field.toNat_get, Field.toNat_concat]
  cases f <;> (dsimp only [Field.lo]; omega)

/-- Neighbouring slices join, from the high end down to the whole value. -/
theorem Field.concat_get (v : XWord) : Field.concat (fun f => f.get v) = v := by
  simp only [Field.concat, Field.get, Field.lo]
  repeat rw [BitVec.extractLsb'_append_extractLsb'_eq_extractLsb']
  all_goals simp

/-! Permitted and defined values (R20 to R56). -/

/-- A field that does not exist is RES0 (R14). -/
theorem Field.permitted_of_not_present {f : Field} {c : Implementation} (h : f.present c = false) :
    f.permitted c = [0#4] := by
  cases f
  case RES47_44 => rfl
  case EVT => exact if_pos (congrArg not h)
  case FWB | ST => exact if_pos (not_le.1 (of_decide_eq_false h))
  case NV => exact if_pos (Nat.le_of_lt_succ (not_le.1 (of_decide_eq_false h)))
  all_goals exact if_neg (of_decide_eq_false h)

/-- The fields that hold 0b0001 where they exist (R23, R31, R36, R38, R54, R56). -/
def Field.mandatory : List Field := [.E0PD, .TTL, .IDS, .AT, .UAO, .CnP]

theorem Field.permitted_of_mandatory {f : Field} (hf : f ∈ Field.mandatory) {c : Implementation}
    (h : f.present c = true) : f.permitted c = [1#4] := by
  simp only [Field.mandatory, List.mem_cons, List.not_mem_nil, or_false] at hf
  rcases hf with rfl | rfl | rfl | rfl | rfl | rfl <;>
    exact if_pos (of_decide_eq_true h)

/-- EVT from Armv8.5 (R25). -/
theorem Field.permitted_EVT_of_five_le {c : Implementation} (h5 : 5 ≤ c.archMinor) :
    Field.EVT.permitted c =
      if c.haveEvt = true ∧ c.haveEl2 = true then [2#4] else [0#4] := by
  have hversion := (c.le_version_iff le_rfl).2 h5
  have h0 : c.version ≠ 0 := by omega
  have h4 : ¬ c.version ≤ 4 := by omega
  simp only [Field.permitted, if_neg h0, if_neg h4]
  cases c.haveEvt <;> cases c.haveEl2 <;> rfl

theorem Field.permitted_subset_definedValues (f : Field) (c : Implementation) :
    f.permitted c ⊆ f.definedValues c := by
  unfold Field.definedValues
  cases hpresent : f.present c with
  | false =>
    rw [Field.permitted_of_not_present hpresent]
    exact List.Subset.refl _
  | true =>
    rw [if_pos rfl]
    cases f
    case RES47_44 => cases hpresent
    all_goals
      simp only [Field.permitted]
      split_ifs <;> simp_all <;> omega

theorem Field.definedValues_subset (f : Field) (c : Implementation) :
    f.definedValues c ⊆ [0#4, 1#4, 2#4] := by
  unfold Field.definedValues
  repeat' split
  all_goals decide

theorem Field.toNat_le_two_of_mem_definedValues {f : Field} {c : Implementation} {v : Nibble}
    (h : v ∈ f.definedValues c) : v.toNat ≤ 2 := by
  have hbound : ∀ u ∈ [0#4, 1#4, 2#4], u.toNat ≤ 2 := by decide
  exact hbound v (f.definedValues_subset c h)

/-! Validity (R57). -/

theorem Implementation.valid_iff (c : Implementation) :
    c.valid = true ↔
      (∀ f : Field, f.get c.regval ∈ f.permitted c) ∧
      (5 ≤ c.archMinor → c.haveEl2 = true → Field.EVT.get c.regval = 2#4) := by
  have hfields : Field.all.all c.fieldOk = true ↔ ∀ f : Field, f.get c.regval ∈ f.permitted c := by
    rw [Field.forall_iff]
    simp [Field.all, Implementation.fieldOk]
  have hevt : c.evtForced = true ↔
      (5 ≤ c.archMinor → c.haveEl2 = true → Field.EVT.get c.regval = 2#4) := by
    rw [← c.le_version_iff le_rfl]
    simp [Implementation.evtForced, imp_iff_not_or, or_assoc]
  rw [Implementation.valid, Bool.and_eq_true, hfields, hevt]

theorem Implementation.get_mem_permitted {c : Implementation} (hc : c.valid = true) (f : Field) :
    f.get c.regval ∈ f.permitted c :=
  (c.valid_iff.1 hc).1 f

theorem Implementation.get_eq_zero_of_not_present {c : Implementation} (hc : c.valid = true)
    {f : Field} (h : f.present c = false) : f.get c.regval = 0#4 := by
  simpa [Field.permitted_of_not_present h] using c.get_mem_permitted hc f

theorem Implementation.get_eq_one_iff_present {c : Implementation} (hc : c.valid = true)
    {f : Field} (hf : f ∈ Field.mandatory) : f.get c.regval = 1#4 ↔ f.present c = true := by
  have hmem := Implementation.get_mem_permitted hc f
  cases hpresent : f.present c with
  | false =>
    rw [Implementation.get_eq_zero_of_not_present hc hpresent]
    decide
  | true => simpa [Field.permitted_of_mandatory hf hpresent] using hmem

theorem Field.present_eq_false_of_archMinor_le_one {f : Field} (hf : f ≠ .EVT) {c : Implementation}
    (h : c.archMinor ≤ 1) : f.present c = false := by
  have hversion : c.version ≤ 1 := by rwa [Implementation.version_eq_archMinor (by omega)]
  cases f
  case EVT => exact absurd rfl hf
  case RES47_44 => rfl
  all_goals exact decide_eq_false (by omega)

/-- Up to Armv8.1 only EVT exists, and the value is that field and 56 zero bits (R21). -/
theorem Implementation.regval_of_archMinor_le_one {c : Implementation} (hc : c.valid = true)
    (h : c.archMinor ≤ 1) :
    c.regval = (Field.EVT.get c.regval ++ 0x00000000000000#56).setWidth 64 := by
  have hzero : ∀ f ≠ Field.EVT, f.get c.regval = 0#4 := fun f hf =>
    Implementation.get_eq_zero_of_not_present hc (Field.present_eq_false_of_archMinor_le_one hf h)
  have hlt := (Field.EVT.get c.regval).isLt
  have htoNat : c.regval.toNat = (Field.EVT.get c.regval).toNat * 2 ^ 56 := by
    conv_lhs => rw [← Field.concat_get c.regval, Field.toNat_concat]
    simp [hzero]
  rw [← BitVec.toNat_inj, BitVec.toNat_setWidth, toNat_append_eq_add, htoNat]
  rw [BitVec.toNat_zero, add_zero, Nat.mod_eq_of_lt (by omega)]

theorem Implementation.regval_eq_zero_of_EVT_eq_zero {c : Implementation} (hc : c.valid = true)
    (h : c.archMinor ≤ 1) (hevt : Field.EVT.get c.regval = 0#4) : c.regval = 0#64 := by
  rw [Implementation.regval_of_archMinor_le_one hc h, hevt]
  decide

theorem Implementation.get_EVT_of_archMinor_zero {c : Implementation} (hc : c.valid = true)
    (h : c.archMinor = 0) : Field.EVT.get c.regval = 0#4 := by
  have hversion : c.version = 0 := (Implementation.version_eq_archMinor (by omega)).trans h
  have hmem := Implementation.get_mem_permitted hc .EVT
  simpa [Field.permitted, hversion] using hmem

/-! An implementation with one field replaced (R34, R73). -/

/-- `c` with the field `f` of its register replaced by `v`; `Implementation.withFwb` is the case of
FWB. -/
def Implementation.withField (c : Implementation) (f : Field) (v : Nibble) : Implementation :=
  { c with regval := Field.concat fun g => if g = f then v else g.get c.regval }

theorem Implementation.withFwb_eq_withField (c : Implementation) (fwb : Nibble) :
    c.withFwb fwb = c.withField .FWB fwb := rfl

theorem Implementation.get_withField (c : Implementation) (f g : Field) (v : Nibble) :
    g.get (c.withField f v).regval = if g = f then v else g.get c.regval := by
  simp only [Implementation.withField, Field.get_concat]

theorem Implementation.permitted_withField (c : Implementation) (f g : Field) (v : Nibble) :
    g.permitted (c.withField f v) = g.permitted c := by
  cases g <;> rfl

theorem Implementation.valid_withField {c : Implementation} (hc : c.valid = true) {f : Field}
    {v : Nibble} (hv : v ∈ f.permitted c) : (c.withField f v).valid = true := by
  obtain ⟨hfields, hevt⟩ := c.valid_iff.1 hc
  refine (Implementation.valid_iff _).2 ⟨fun g => ?_, fun (h5 : 5 ≤ c.archMinor) hel2 => ?_⟩
  · rw [Implementation.get_withField, Implementation.permitted_withField]
    split
    case isTrue hgf => exact hgf ▸ hv
    case isFalse => exact hfields g
  · have hevt2 := hevt h5 hel2
    rw [Implementation.get_withField]
    split
    case isTrue hgf =>
      have hmem := hfields .EVT
      rw [← hgf] at hv
      rw [hevt2, Field.permitted_EVT_of_five_le h5] at hmem
      rw [Field.permitted_EVT_of_five_le h5] at hv
      split at hmem <;> simp_all
    case isFalse => exact hevt2

/-! The obligations about the value. -/

/-- Settles O12: the lines are the fields' permitted sets, in another order. -/
theorem validIsTheListing : Obligations.ValidIsTheListing := by
  unfold Obligations.ValidIsTheListing
  intro c
  simp only [← c.version_eq_min, c.valid_iff, ← c.le_version_iff (n := 5) le_rfl,
    Field.forall_iff, Field.permitted, mem_ite, ite_prop_iff_and, List.mem_cons, List.not_mem_nil,
    or_false, ge_iff_le, and_imp, Bool.not_eq_true', Bool.not_eq_true]
  constructor
  · rintro ⟨⟨hE0PD, hEVT, hBBM, hTTL, hRES, hlower⟩, hforced⟩
    exact ⟨hRES, hE0PD, hEVT, hforced, hBBM, hTTL, hlower⟩
  · rintro ⟨hRES, hE0PD, hEVT, hforced, hBBM, hTTL, hlower⟩
    exact ⟨⟨hE0PD, hEVT, hBBM, hTTL, hRES, hlower⟩, hforced⟩

/-- Settles O13: the permitted set of EVT, and a register without EL2 for either choice of
ARMv8.2-EVT. -/
theorem evtForcedFromArmv85 : Obligations.EvtForcedFromArmv85 := by
  unfold Obligations.EvtForcedFromArmv85
  have forced : ∀ c : Implementation, c.archMinor ≥ 5 → c.haveEl2 = true → c.valid = true →
      Field.EVT.get c.regval = 2#4 ∧ c.haveEvt = true := by
    intro c h5 hel2 hc
    have hevt := (c.valid_iff.1 hc).2 h5 hel2
    have hmem := Implementation.get_mem_permitted hc .EVT
    rw [Field.permitted_EVT_of_five_le h5, hevt] at hmem
    split at hmem
    case isTrue hopt => exact ⟨hevt, hopt.1⟩
    case isFalse => exact absurd hmem (by decide)
  refine ⟨forced, fun c h5 hel2 hevt v => ?_, fun c h5 hel2 hc => ?_, fun evt => ?_⟩
  · rw [Bool.eq_false_iff]
    intro hc
    obtain ⟨-, hevt'⟩ := forced { c with regval := v } h5 hel2 hc
    exact Bool.false_ne_true (hevt.symm.trans hevt')
  · have hmem := Implementation.get_mem_permitted hc .EVT
    rw [Field.permitted_EVT_of_five_le h5, if_neg (by simp [hel2])] at hmem
    exact List.mem_singleton.1 hmem
  · refine ⟨{ Machine.resetImplementation with
      haveEl2 := false, haveEvt := evt, regval := 0x1001011110000011 }, ?_⟩
    cases evt <;> decide

/-- Settles O14: IDS is a mandatory field, which exists from Armv8.4. -/
theorem idstExactlyFromArmv84 : Obligations.IdstExactlyFromArmv84 := by
  unfold Obligations.IdstExactlyFromArmv84
  intro c
  have hidst : isIdstImplemented c = true ↔ Field.IDS.get c.regval = 1#4 := beq_iff_eq
  refine ⟨hidst, fun hc => ?_⟩
  rw [hidst, Implementation.get_eq_one_iff_present hc (by decide)]
  exact Field.present_iff_from4 c .IDS (by decide)

/-- Settles O16. -/
theorem fieldLaws : Obligations.FieldLaws := by
  unfold Obligations.FieldLaws
  refine ⟨fun f v => ⟨?_, (f.get v).isLt⟩, rfl, Field.concat_get, Field.get_concat,
    fun c f hc => ?_⟩
  · rw [BitVec.toNat_and, BitVec.toNat_ushiftRight]
    exact (Nat.and_two_pow_sub_one_eq_mod _ 4).symm
  · exact Field.toNat_le_two_of_mem_definedValues
      (f.permitted_subset_definedValues c (Implementation.get_mem_permitted hc f))

/-- Settles O18: each clause is one cell of the IDS table. -/
theorem idsFieldMeaning : Obligations.IdsFieldMeaning := by
  unfold Obligations.IdsFieldMeaning
  refine ⟨fun c => ?_, fun v h => ?_, fun v cause h => ?_, rfl, fun n => ?_, by decide,
    fun c => beq_iff_eq⟩
  · have hpresent := Field.present_iff_from4 c .IDS (by decide)
    simp only [Field.definedValues, hpresent, ge_iff_le]
  · have hids : Field.IDS.get v = 0#4 := h
    simp [idsReportedEc, hids]
  · have hids : Field.IDS.get v = 1#4 := h
    simp [idsReportedEc, hids]
  · simp only [SysRegName.inFeatureIdSpace_iff, List.mem_cons, List.not_mem_nil, or_false]

/-- Settles O19: each clause is one cell of the NV table. -/
theorem nvFieldMeaning : Obligations.NvFieldMeaning := by
  unfold Obligations.NvFieldMeaning
  refine ⟨fun c => ?_, fun v b => ?_, rfl, rfl⟩
  · have hpresent := Field.present_iff_from3 c .NV (by decide)
    have hversion := c.le_version_iff (n := 4) (by decide)
    constructor
    · intro h
      rw [Field.definedValues, if_pos (hpresent.2 (by omega)), if_pos (hversion.2 h)]
    · intro h
      rw [Field.definedValues, if_pos (hpresent.2 (by omega)), if_neg (by omega)]
  · have hslice : v.extractLsb 27 24 = Field.NV.get v := rfl
    rw [hslice]
    refine ⟨fun h => ?_, fun h => ?_, fun h => ?_⟩ <;> cases b <;> simp [nvItemImplemented, h]

/-- Settles O20. -/
theorem permittedValuesAreDefined : Obligations.PermittedValuesAreDefined := by
  unfold Obligations.PermittedValuesAreDefined
  intro c f
  have hsub := f.permitted_subset_definedValues c
  exact ⟨fun _ hv => hsub hv, fun hc =>
    ⟨Implementation.get_mem_permitted hc f, hsub (Implementation.get_mem_permitted hc f)⟩⟩

/-- Settles O21: the register of `Implementation.withField`. -/
theorem permittedValuesAreHeld : Obligations.PermittedValuesAreHeld := by
  unfold Obligations.PermittedValuesAreHeld
  intro c f v hc hv
  refine ⟨(c.withField f v).regval, Implementation.valid_withField hc hv, ?_, fun g hg => ?_⟩
  · rw [Implementation.get_withField, if_pos rfl]
  · rw [Implementation.get_withField, if_neg hg]

/-- Settles O24: a reset is the replacement of FWB by a permitted value. -/
theorem resetChangesAtMostFwb : Obligations.ResetChangesAtMostFwb := by
  unfold Obligations.ResetChangesAtMostFwb
  rintro c d hc ⟨fwb, hfwb, rfl⟩
  rw [Implementation.withFwb_eq_withField]
  refine ⟨Implementation.valid_withField hc hfwb, ?_, fun f hf => ?_, rfl, rfl, rfl, rfl⟩
  · rwa [Implementation.get_withField, if_pos rfl]
  · rw [Implementation.get_withField, if_neg hf]

/-- Settles O22: the fields are the slices. -/
theorem namedQueries : Obligations.NamedQueries := by
  unfold Obligations.NamedQueries
  intro v g
  exact ⟨beq_iff_eq, rfl, rfl, beq_iff_eq, beq_iff_eq, beq_iff_eq, beq_iff_eq, beq_iff_eq, rfl, rfl,
    beq_iff_eq, rfl, beq_iff_eq, beq_iff_eq, beq_iff_eq, beq_iff_eq⟩

theorem Feature.reported_iff {f : Feature} {fld : Field} {values : List Nibble}
    (htie : f.tie = some (fld, values)) (c : Implementation) :
    f.reported c = some true ↔ fld.present c = true ∧ fld.get c.regval ∈ values := by
  simp [Feature.reported, htie]

/-- A feature tied to 0b0001 of a mandatory field is reported exactly where the field exists. -/
theorem Feature.reported_iff_present_of_mandatory {f : Feature} {fld : Field}
    (htie : f.tie = some (fld, [1#4])) (hfld : fld ∈ Field.mandatory) {c : Implementation}
    (hc : c.valid = true) : f.reported c = some true ↔ fld.present c = true := by
  rw [Feature.reported_iff htie, List.mem_singleton,
    Implementation.get_eq_one_iff_present hc hfld, and_self]

theorem Feature.reported_TTRem_iff_present {c : Implementation} (hc : c.valid = true) :
    Feature.TTRem.reported c = some true ↔ Field.BBM.present c = true := by
  rw [Feature.reported_iff rfl, and_iff_left_iff_imp]
  intro hpresent
  have hmem := Field.permitted_subset_definedValues _ c (Implementation.get_mem_permitted hc .BBM)
  rwa [Field.definedValues, if_pos hpresent] at hmem

/-- Settles O23: six features are tied to mandatory fields, TTRem to every value of BBM. -/
theorem mandatoryFeaturesByVersion : Obligations.MandatoryFeaturesByVersion := by
  unfold Obligations.MandatoryFeaturesByVersion
  intro c hc
  have from4 := Field.present_iff_from4 c
  have from2 := Field.present_iff_from2 c
  refine ⟨?_, fun f hf => ?_, fun f hf => ?_⟩
  · exact (Feature.reported_iff_present_of_mandatory rfl (by decide) hc).trans
      (Field.present_E0PD_iff c)
  · simp only [List.mem_cons, List.not_mem_nil, or_false] at hf
    rcases hf with rfl | rfl | rfl | rfl
    · exact (Feature.reported_TTRem_iff_present hc).trans (from4 _ (by decide))
    all_goals
      exact (Feature.reported_iff_present_of_mandatory rfl (by decide) hc).trans
        (from4 _ (by decide))
  · simp only [List.mem_cons, List.not_mem_nil, or_false] at hf
    rcases hf with rfl | rfl
    all_goals
      exact (Feature.reported_iff_present_of_mandatory rfl (by decide) hc).trans
        (from2 _ (by decide))

end Sys2Proof
end

section
/-! SUPPORT. Proofs of the statements about the read and the write form (40_mrs_id_aa64mmfr2.md,
60_exceptions.md): what the access rule answers at each Exception level, the outcome of the read for
each answer, and the one outcome of the write form. -/

namespace Sys2Proof.Machine

/-! The access rule at each Exception level (R101). -/

/-- At EL0 the access is never the value: the trap with ARMv8.4-IDST, UNDEFINED without. -/
theorem access_EL0 (ids : Nibble) (en a32 tge tid3 : Bool) :
    access .EL0 ids en a32 tge tid3 =
      if ids = 1#4 then .trap (if en && !a32 && tge then .EL2 else .EL1) 0x18
      else .undef (if en && tge then .EL2 else .EL1) := by
  rw [apply_ite (Access.trap · 0x18)]
  rfl

theorem access_EL2 (ids : Nibble) (en a32 tge tid3 : Bool) :
    access .EL2 ids en a32 tge tid3 = .value := rfl

theorem access_EL3 (ids : Nibble) (en a32 tge tid3 : Bool) :
    access .EL3 ids en a32 tge tid3 = .value := rfl

/-- Settles O25: each Exception level by its own equation. -/
theorem accessOutcomes : Obligations.AccessOutcomes := by
  unfold Obligations.AccessOutcomes
  intro el ids en a32 tge tid3
  cases el with
  | EL0 =>
    rw [access_EL0]
    by_cases hids : ids = 1#4 <;> cases en <;> cases a32 <;> cases tge <;> simp [hids]
  | EL1 =>
    rw [access_EL1]
    cases en <;> cases a32 <;> cases tid3 <;> simp
  | EL2 => simp [access_EL2]
  | EL3 => simp [access_EL3]

/-- Settles O37: the equation of each Exception level names the inputs that count there. -/
theorem whereEachInputMatters : Obligations.WhereEachInputMatters := by
  unfold Obligations.WhereEachInputMatters
  intro el ids ids' en a32 tge tge' tid3 tid3'
  cases el with
  | EL0 => simp +contextual [access_EL0]
  | EL1 => simp [access_EL1]
  | EL2 => simp [access_EL2]
  | EL3 => simp [access_EL3]

/-! The access of a state. -/

theorem accessOf_of_EL0_idst {s : State} (hel : s.el = .EL0) (hids : idsField s = 1#4) :
    accessOf s =
      .trap
        (if s.el2Enabled = true ∧ s.el2UsingAArch32 = false ∧ s.hcrTge = true then .EL2 else .EL1)
        0x18 := by
  rw [accessOf, hel, access_EL0, if_pos hids]
  simp only [Bool.and_eq_true, Bool.not_eq_true', and_assoc]

theorem accessOf_of_EL0_no_idst {s : State} (hel : s.el = .EL0) (hids : idsField s ≠ 1#4) :
    accessOf s = .undef (if s.el2Enabled = true ∧ s.hcrTge = true then .EL2 else .EL1) := by
  rw [accessOf, hel, access_EL0, if_neg hids]
  simp only [Bool.and_eq_true]

theorem accessOf_eq_value_of_EL2 {s : State} (hel : s.el = .EL2) : accessOf s = .value := by
  rw [accessOf, hel, access_EL2]

theorem accessOf_eq_value_of_EL3 {s : State} (hel : s.el = .EL3) : accessOf s = .value := by
  rw [accessOf, hel, access_EL3]

theorem accessOf_ne_value_of_EL0 {s : State} (hel : s.el = .EL0) : accessOf s ≠ .value := by
  by_cases hids : idsField s = 1#4
  · simp [accessOf_of_EL0_idst hel hids]
  · simp [accessOf_of_EL0_no_idst hel hids]

/-- `State.MayRead` is the condition under which the access returns the value (R119). -/
theorem accessOf_eq_value_iff (s : State) : accessOf s = .value ↔ s.MayRead := by
  cases hel : s.el with
  | EL0 => simp [State.MayRead, hel, accessOf_ne_value_of_EL0 hel]
  | EL1 => simp [State.MayRead, hel, accessOf_of_EL1 hel, imp_iff_not_or]
  | EL2 => simp [State.MayRead, hel, accessOf_eq_value_of_EL2 hel]
  | EL3 => simp [State.MayRead, hel, accessOf_eq_value_of_EL3 hel]

/-! The read, by the answer of the access rule. -/

theorem exec_mrs_of_access_undef {s : State} {target : ExceptionLevel}
    (h : accessOf s = .undef target) (rt : Reg) :
    exec (.mrsIdAa64mmfr2 rt) s = .fault (.undefined target 0x0 s) := by
  simp only [exec, execMrsIdAa64mmfr2, readThroughAccess, h, raiseUndefined, ecUndefined]

theorem exec_mrs_next_iff (rt : Reg) (s t : State) :
    exec (.mrsIdAa64mmfr2 rt) s = .next t ↔
      accessOf s = .value ∧ t = advancePc (writeX rt s.impl.regval s) := by
  constructor
  · intro h
    obtain ⟨_, hi, hacc, ht⟩ := exec_next_cases h
    cases hi
    exact ⟨hacc, ht⟩
  · rintro ⟨hacc, rfl⟩
    exact exec_mrs_of_access_value hacc rt

/-- The fault of a read is the one its access names, whatever the destination. -/
theorem exec_mrs_fault_iff (rt : Reg) (s : State) (f : Fault) :
    exec (.mrsIdAa64mmfr2 rt) s = .fault f ↔
      (∃ target ec, accessOf s = .trap target ec ∧ f = .systemAccessTrap target ec s) ∨
      (∃ target, accessOf s = .undef target ∧ f = .undefined target 0x0 s) := by
  cases hacc : accessOf s with
  | value => simp [exec_mrs_of_access_value hacc]
  | trap target ec => simp [exec_mrs_of_access_trap hacc, eq_comm]
  | undef target => simp [exec_mrs_of_access_undef hacc, eq_comm]

/-- The read at EL0 with ARMv8.4-IDST (R110). -/
theorem exec_mrs_EL0_idst {s : State} (hel : s.el = .EL0) (hids : idsField s = 1#4) (rt : Reg) :
    exec (.mrsIdAa64mmfr2 rt) s =
      .fault (.systemAccessTrap
        (if s.el2Enabled = true ∧ s.el2UsingAArch32 = false ∧ s.hcrTge = true then .EL2 else .EL1)
        0x18 s) :=
  exec_mrs_of_access_trap (accessOf_of_EL0_idst hel hids) rt

/-- The read at EL0 without ARMv8.4-IDST (R106). -/
theorem exec_mrs_EL0_no_idst {s : State} (hel : s.el = .EL0) (hids : idsField s ≠ 1#4) (rt : Reg) :
    exec (.mrsIdAa64mmfr2 rt) s =
      .fault (.undefined (if s.el2Enabled = true ∧ s.hcrTge = true then .EL2 else .EL1) 0x0 s) :=
  exec_mrs_of_access_undef (accessOf_of_EL0_no_idst hel hids) rt

/-- The read at EL1 under TID3 (R111). -/
theorem exec_mrs_EL1_trapped {s : State} (hel : s.el = .EL1)
    (h : s.el2Enabled = true ∧ s.el2UsingAArch32 = false ∧ s.hcrTid3 = true) (rt : Reg) :
    exec (.mrsIdAa64mmfr2 rt) s = .fault (.systemAccessTrap .EL2 0x18 s) :=
  exec_mrs_of_access_trap ((accessOf_of_EL1 hel).trans (if_pos h)) rt

/-- The places where a read faults, each with its fault (R105, R119). -/
theorem exec_mrs_fault_cases {rt : Reg} {s : State} {f : Fault}
    (h : exec (.mrsIdAa64mmfr2 rt) s = .fault f) :
    (∃ target, (target = .EL1 ∨ target = .EL2) ∧ s.el = .EL0 ∧ idsField s = 1#4 ∧
      f = .systemAccessTrap target 0x18 s) ∨
    (∃ target, (target = .EL1 ∨ target = .EL2) ∧ s.el = .EL0 ∧ idsField s ≠ 1#4 ∧
      f = .undefined target 0x0 s) ∨
    (s.el = .EL1 ∧ s.hcrTid3 = true ∧ f = .systemAccessTrap .EL2 0x18 s) := by
  have target_cases : ∀ (p : Prop) [Decidable p], (if p then .EL2 else .EL1) = ExceptionLevel.EL1 ∨
      (if p then .EL2 else .EL1) = ExceptionLevel.EL2 := fun p _ => (ite_eq_or_eq p _ _).symm
  by_cases hread : s.MayRead
  · rw [exec_mrs_of_access_value ((accessOf_eq_value_iff s).2 hread)] at h
    cases h
  cases hel : s.el with
  | EL0 =>
    by_cases hids : idsField s = 1#4
    · rw [exec_mrs_EL0_idst hel hids] at h
      cases h
      exact .inl ⟨_, target_cases _, rfl, hids, rfl⟩
    · rw [exec_mrs_EL0_no_idst hel hids] at h
      cases h
      exact .inr (.inl ⟨_, target_cases _, rfl, hids, rfl⟩)
  | EL1 =>
    simp only [State.MayRead, hel, reduceCtorEq, false_or, true_and, not_or, Bool.not_eq_false,
      Bool.not_eq_true] at hread
    rw [exec_mrs_EL1_trapped hel hread] at h
    cases h
    exact .inr (.inr ⟨rfl, hread.2.2, rfl⟩)
  | EL2 => exact absurd (.inl hel) hread
  | EL3 => exact absurd (.inr (.inl hel)) hread

/-! The IDS field and ARMv8.4-IDST (R59). -/

theorem isIdstImplemented_iff (s : State) :
    isIdstImplemented s.impl = true ↔ idsField s = 1#4 := beq_iff_eq

theorem idsField_eq_one_iff_of_valid {s : State} (hs : s.impl.valid = true) :
    idsField s = 1#4 ↔ 4 ≤ s.impl.archMinor :=
  (isIdstImplemented_iff s).symm.trans ((idstExactlyFromArmv84 s.impl).2 hs)

theorem idsField_eq_zero_of_valid {s : State} (hs : s.impl.valid = true) (h : idsField s ≠ 1#4) :
    idsField s = 0#4 := by
  refine Implementation.get_eq_zero_of_not_present hs (Bool.eq_false_iff.2 fun hpresent => h ?_)
  exact (Implementation.get_eq_one_iff_present hs (by decide)).2 hpresent

theorem idsField_ne_one {s : State} (h : Field.IDS.get s.impl.regval = 0#4) :
    idsField s ≠ 1#4 := by
  rw [idsField, h]
  decide

/-! The write form. -/

theorem exec_msr (rt : Reg) (s : State) :
    exec (.msrIdAa64mmfr2 rt) s = .fault (.undefined (undefTargetOf s) 0x0 s) := rfl

theorem undefTargetOf_of_EL0 {s : State} (hel : s.el = .EL0) :
    undefTargetOf s = if s.el2Enabled = true ∧ s.hcrTge = true then .EL2 else .EL1 := by
  simp only [undefTargetOf, undefTarget, hel, Bool.and_eq_true]

theorem undefTargetOf_of_ne_EL0 {s : State} (hel : s.el ≠ .EL0) : undefTargetOf s = s.el := by
  rw [undefTargetOf]
  cases h : s.el with
  | EL0 => exact absurd h hel
  | EL1 | EL2 | EL3 => rfl

/-- Settles O43. -/
theorem msrAlwaysUndefined : Obligations.MsrAlwaysUndefined := by
  unfold Obligations.MsrAlwaysUndefined
  refine ⟨toNat_encode_msr, fun rt s => ?_⟩
  rw [exec_msr]
  cases hel : s.el with
  | EL0 => rw [undefTargetOf_of_EL0 hel]
  | EL1 | EL2 | EL3 => rw [undefTargetOf_of_ne_EL0 (by simp [hel]), hel]

/-- Settles O32. -/
theorem undefinedTargets : Obligations.UndefinedTargets := by
  unfold Obligations.UndefinedTargets
  refine fun rt s => ⟨fun hel hids => ?_, fun hel => ?_, fun hel => ?_⟩
  · exact exec_mrs_EL0_no_idst hel (idsField_ne_one hids) rt
  · rw [exec_msr, undefTargetOf_of_EL0 hel]
  · rw [exec_msr, undefTargetOf_of_ne_EL0 hel]

/-! The obligations about the read. -/

/-- Settles O26: each branch of the listing by the lemma for its level. -/
theorem mrsFollowsTheListing : Obligations.MrsFollowsTheListing := by
  unfold Obligations.MrsFollowsTheListing
  refine ⟨toNat_encode_mrs, fun rt s => ?_⟩
  dsimp only
  simp only [and_assoc]
  by_cases h0 : s.el = .EL0
  · rw [if_pos h0]
    by_cases hids : Field.IDS.get s.impl.regval = 1#4
    · rw [exec_mrs_EL0_idst h0 hids, if_pos hids]
      split_ifs <;> rfl
    · rw [exec_mrs_EL0_no_idst h0 hids, if_neg hids]
      split_ifs <;> rfl
  rw [if_neg h0]
  by_cases h1 : s.el = .EL1
  · rw [if_pos h1]
    by_cases htrap : s.el2Enabled = true ∧ s.el2UsingAArch32 = false ∧ s.hcrTid3 = true
    · rw [exec_mrs_EL1_trapped h1 htrap, if_pos htrap]
    · rw [exec_mrs_of_access_value ((accessOf_of_EL1 h1).trans (if_neg htrap)),
        if_neg htrap]
      cases rt <;> rfl
  · have hread : s.MayRead := by
      cases hel : s.el with
      | EL0 => exact absurd hel h0
      | EL1 => exact absurd hel h1
      | EL2 => exact .inl hel
      | EL3 => exact .inr (.inl hel)
    rw [if_neg h1, exec_mrs_of_access_value ((accessOf_eq_value_iff s).2 hread)]
    cases rt <;> rfl

/-- Settles O27. -/
theorem mrsCompletes : Obligations.MrsCompletes := by
  unfold Obligations.MrsCompletes
  intro s hread
  have hacc := (accessOf_eq_value_iff s).2 hread
  exact ⟨fun n => exec_mrs_of_access_value hacc (.x n), exec_mrs_of_access_value hacc .xzr⟩

/-- Settles O29. -/
theorem mrsAtEl0WithIdst : Obligations.MrsAtEl0WithIdst := by
  unfold Obligations.MrsAtEl0WithIdst
  intro rt s hel hidst
  have hexec := exec_mrs_EL0_idst hel ((isIdstImplemented_iff s).1 hidst) rt
  refine ⟨fun h => ⟨s, ?_⟩, fun h => ⟨s, ?_⟩⟩
  · rw [hexec, if_pos h]
  · rw [hexec, if_neg h]

/-- A state at EL0 with EL2 enabled and using AArch64, where TGE alone decides the target. -/
def el0State (c : Implementation) (tge : Bool) : State :=
  { State.reset with impl := c, el := .EL0, hcrTge := tge, el2Enabled := true }

/-- Armv8.0 with the options of the reset implementation: its register is zero. -/
def armv80 : Implementation := { resetImplementation with archMinor := 0, regval := 0 }

theorem valid_resetImplementation : resetImplementation.valid = true := by decide

theorem valid_armv80 : armv80.valid = true := by decide

theorem idsField_el0State (c : Implementation) (tge : Bool) :
    idsField (el0State c tge) = Field.IDS.get c.regval := rfl

theorem exec_mrs_el0State_idst {c : Implementation} (h : Field.IDS.get c.regval = 1#4) (tge : Bool)
    (rt : Reg) :
    exec (.mrsIdAa64mmfr2 rt) (el0State c tge) =
      .fault (.systemAccessTrap (if tge = true then .EL2 else .EL1) 0x18 (el0State c tge)) := by
  rw [exec_mrs_EL0_idst rfl ((idsField_el0State c tge).trans h)]
  cases tge <;> rfl

theorem exec_mrs_el0State_no_idst {c : Implementation} (h : Field.IDS.get c.regval ≠ 1#4)
    (tge : Bool) (rt : Reg) :
    exec (.mrsIdAa64mmfr2 rt) (el0State c tge) =
      .fault (.undefined (if tge = true then .EL2 else .EL1) 0x0 (el0State c tge)) := by
  rw [exec_mrs_EL0_no_idst rfl (mt (idsField_el0State c tge).symm.trans h)]
  cases tge <;> rfl

/-- Settles O30: the fault cases of the read, and EL0 states of an Armv8.5 and of an Armv8.0 with
either value of TGE. -/
theorem exceptionsOfTheRead : Obligations.ExceptionsOfTheRead := by
  unfold Obligations.ExceptionsOfTheRead
  constructor
  · intro rt s f h
    rw [Bool.eq_false_iff, ne_eq, isIdstImplemented_iff]
    rcases exec_mrs_fault_cases h with ⟨target, htarget, hel, hids, rfl⟩ |
      ⟨target, htarget, hel, hids, rfl⟩ | ⟨hel, htid3, rfl⟩
    · exact ⟨htarget, .inl ⟨rfl, .inl ⟨hel, hids⟩⟩⟩
    · exact ⟨htarget, .inr ⟨rfl, hel, hids⟩⟩
    · exact ⟨.inr rfl, .inl ⟨rfl, .inr ⟨hel, htid3⟩⟩⟩
  · have hone : Field.IDS.get resetImplementation.regval = 1#4 := by decide
    have hzero : Field.IDS.get armv80.regval ≠ 1#4 := by decide
    rintro rt target (rfl | rfl)
    · exact ⟨⟨el0State resetImplementation false, _, valid_resetImplementation,
          exec_mrs_el0State_idst hone false rt⟩,
        ⟨el0State armv80 false, _, valid_armv80, exec_mrs_el0State_no_idst hzero false rt⟩⟩
    · exact ⟨⟨el0State resetImplementation true, _, valid_resetImplementation,
          exec_mrs_el0State_idst hone true rt⟩,
        ⟨el0State armv80 true, _, valid_armv80, exec_mrs_el0State_no_idst hzero true rt⟩⟩

/-- Settles O31. -/
theorem mrsUndefinedOnlyAtEl0WithoutIdst : Obligations.MrsUndefinedOnlyAtEl0WithoutIdst := by
  unfold Obligations.MrsUndefinedOnlyAtEl0WithoutIdst
  refine ⟨fun rt s hel hids => exec_mrs_EL0_no_idst hel (idsField_ne_one hids) rt, ?_⟩
  intro rt s stopped target ec hs h
  rcases exec_mrs_fault_cases h with ⟨_, _, _, _, hf⟩ | ⟨_, _, hel, hids, hf⟩ | ⟨_, _, hf⟩ <;>
    cases hf
  exact ⟨hel, idsField_eq_zero_of_valid hs hids, rfl, rfl⟩

/-- Settles O33. -/
theorem exceptionClassByIds : Obligations.ExceptionClassByIds := by
  unfold Obligations.ExceptionClassByIds
  refine fun rt s => ⟨fun hel hids => ?_, fun hel hids => ?_, fun hel hen ha32 htid3 _ => ?_⟩
  · exact ⟨_, exec_mrs_EL0_no_idst hel (idsField_ne_one hids) rt, rfl⟩
  · exact ⟨_, exec_mrs_EL0_idst hel hids rt, rfl⟩
  · exact ⟨_, exec_mrs_EL1_trapped hel ⟨hen, ha32, htid3⟩ rt, rfl⟩

theorem idsReportedEc_of_ids_one {v : XWord} (h : Field.IDS.get v = 1#4) (cause : IdReadCause) :
    idsReportedEc v cause = some 0x18 := by
  simp [idsReportedEc, h]

/-- At another IDS value the cell gives a class to other causes alone, and it is `0x0`. -/
theorem idsReportedEc_of_ids_ne_one {v : XWord} (h : Field.IDS.get v ≠ 1#4) {cause : IdReadCause}
    {ec : Nat} (hec : idsReportedEc v cause = some ec) : cause = .other ∧ ec = 0x0 := by
  simp only [idsReportedEc, if_neg h] at hec
  split_ifs at hec with _ hcause
  exact ⟨hcause, (Option.some.inj hec).symm⟩

/-- Settles O34: IDS 0b0001 gives class 0x18 to every cause; at any other value the cell speaks only
of the EL0 read, which is UNDEFINED. -/
theorem accessorAgreesWithIdsText : Obligations.AccessorAgreesWithIdsText := by
  unfold Obligations.AccessorAgreesWithIdsText
  intro rt s f h ec hec
  by_cases hids : idsField s = 1#4
  · rw [idsReportedEc_of_ids_one hids] at hec
    cases hec
    rcases exec_mrs_fault_cases h with ⟨_, _, _, _, rfl⟩ | ⟨_, _, _, hne, _⟩ | ⟨_, _, rfl⟩
    · rfl
    · exact absurd hids hne
    · rfl
  · obtain ⟨hcause, rfl⟩ := idsReportedEc_of_ids_ne_one hids hec
    rcases exec_mrs_fault_cases h with ⟨_, _, _, hone, _⟩ | ⟨_, _, _, _, rfl⟩ | ⟨hel, _, _⟩
    · exact absurd hone hids
    · rfl
    · rw [if_pos hel] at hcause
      cases hcause

/-- Settles O35. -/
theorem whatEachLevelMayDo : Obligations.WhatEachLevelMayDo := by
  unfold Obligations.WhatEachLevelMayDo
  intro rt s hs
  have hidst := idsField_eq_one_iff_of_valid hs
  have returns : s.MayRead → ∃ t, exec (.mrsIdAa64mmfr2 rt) s = .next t := fun h =>
    ⟨_, exec_mrs_of_access_value ((accessOf_eq_value_iff s).2 h) rt⟩
  refine ⟨fun hel h4 => ?_, fun hel h4 => ?_, fun hel => ⟨?_, fun hno => ?_⟩,
    fun hel => returns (.inl hel), fun hel => returns (.inr (.inl hel)), fun t h => ?_⟩
  · exact ⟨_, exec_mrs_EL0_idst hel (hidst.2 h4) rt⟩
  · exact ⟨_, exec_mrs_EL0_no_idst hel (mt hidst.1 (by omega)) rt⟩
  · rintro ⟨t, ht⟩ htrap
    rw [exec_mrs_EL1_trapped hel htrap] at ht
    cases ht
  · exact ⟨_, exec_mrs_of_access_value ((accessOf_of_EL1 hel).trans (if_neg hno)) rt⟩
  · rw [exec_msr] at h
    cases h

/-- Settles O36. -/
theorem exceptionPriority : Obligations.ExceptionPriority := by
  unfold Obligations.ExceptionPriority
  constructor
  · intro rt s b hel
    by_cases hids : idsField s = 1#4
    · exact ⟨_, _, exec_mrs_EL0_idst hel hids rt,
        exec_mrs_EL0_idst (s := { s with hcrTid3 := b }) hel hids rt, rfl, rfl⟩
    · exact ⟨_, _, exec_mrs_EL0_no_idst hel hids rt,
        exec_mrs_EL0_no_idst (s := { s with hcrTid3 := b }) hel hids rt, rfl, rfl⟩
  · intro rt s stopped target ec hel h
    rcases exec_mrs_fault_cases h with ⟨_, _, _, _, hf⟩ | ⟨_, _, hel0, _, _⟩ | ⟨_, _, hf⟩
    · cases hf
    · rw [hel] at hel0
      cases hel0
    · cases hf

/-- Settles O39: the access rule does not see the destination. -/
theorem zeroRegisterDestination : Obligations.ZeroRegisterDestination := by
  unfold Obligations.ZeroRegisterDestination
  refine ⟨rfl, writeX_xzr, fun n s f => ?_, fun s t h => ?_⟩
  · rw [exec_mrs_fault_iff, exec_mrs_fault_iff]
  · exact ((exec_mrs_next_iff _ _ _).1 h).2

/-- Settles O40. -/
theorem mrsFrame : Obligations.MrsFrame := by
  unfold Obligations.MrsFrame
  intro rt s t h
  obtain ⟨-, rfl⟩ := (exec_mrs_next_iff rt s t).1 h
  refine ⟨fun n hn => ?_, ?_⟩
  · rw [readX_advancePc, readX_writeX_other hn]
  · simp

theorem accessOf_congr {s t : State} (h : s.SameInputs t) (hids : idsField s = idsField t) :
    accessOf s = accessOf t := by
  obtain ⟨hel, htge, htid3, hen, ha32⟩ := h
  rw [accessOf, accessOf, hel, htge, htid3, hen, ha32, hids]

/-- Settles O42: the fault is a function of the access, and the access of the inputs and IDS. -/
theorem trappedReadRevealsOnlyIds : Obligations.TrappedReadRevealsOnlyIds := by
  unfold Obligations.TrappedReadRevealsOnlyIds
  intro rt rt' s t f hinputs hids h
  have hacc := accessOf_congr hinputs hids
  rcases (exec_mrs_fault_iff rt s f).1 h with ⟨target, ec, htrap, rfl⟩ | ⟨target, hundef, rfl⟩
  · exact ⟨_, exec_mrs_of_access_trap (hacc.symm.trans htrap) rt', rfl, rfl⟩
  · exact ⟨_, exec_mrs_of_access_undef (hacc.symm.trans hundef) rt', rfl, rfl⟩

/-- Settles O15: the destination holds the register, which up to Armv8.1 is EVT and zeros. -/
theorem readValueByVersion : Obligations.ReadValueByVersion := by
  unfold Obligations.ReadValueByVersion
  intro s t n h
  obtain ⟨-, rfl⟩ := (exec_mrs_next_iff (.x n) s t).1 h
  rw [readX_advancePc, readX_writeX_same]
  refine ⟨rfl, fun hs h0 => ?_, fun hs h1 => ⟨?_, fun _ => ?_, fun hevt => ?_⟩⟩
  · exact Implementation.regval_eq_zero_of_EVT_eq_zero hs (by omega)
      (Implementation.get_EVT_of_archMinor_zero hs h0)
  · exact Implementation.regval_of_archMinor_le_one hs h1.le
  · exact Field.toNat_le_two_of_mem_definedValues
      (Field.permitted_subset_definedValues _ _ (Implementation.get_mem_permitted hs .EVT))
  · exact Implementation.regval_eq_zero_of_EVT_eq_zero hs h1.le
      (Implementation.get_eq_zero_of_not_present hs hevt)

end Sys2Proof.Machine
end

section
/-! SUPPORT. Proofs of the statements about one step and about reset (00_scope.md section 4,
10_state.md sections 5 and 6, 60_exceptions.md section 8, 70_reset_and_hazards.md): what a step
answers for each verdict of the decoder, and what it keeps. -/

namespace Sys2Proof.Machine

/-! The step, by the verdict on the next word. -/

theorem fetch_of_launchable {s : State} (hs : s.Launchable) {w : InstrWord} {rest : List InstrWord}
    (hp : s.program = w :: rest) {i : Instr} (hd : decode w = .instr i) : fetch s = .instr i := by
  obtain ⟨hvalid, haligned⟩ := hs
  rw [fetch, if_neg (by simp [hvalid]), if_neg (not_not.2 haligned)]
  simp only [hp, hd]

theorem step_of_decode {s : State} (hs : s.Launchable) {w : InstrWord} {rest : List InstrWord}
    (hp : s.program = w :: rest) {i : Instr} (hd : decode w = .instr i) :
    (∀ t, exec i s = .next t → step s = .next (retire t)) ∧
    (∀ f, exec i s = .fault f → step s = .fault f) := by
  have hfetch := fetch_of_launchable hs hp hd
  exact ⟨fun t he => by simp only [step, hfetch, he], fun f he => by simp only [step, hfetch, he]⟩

theorem step_of_fetch_refused {s : State} {r : Refusal} (h : fetch s = .refused r) :
    step s = .refused r := by
  simp only [step, h]

theorem step_of_notInScope {s : State} (hs : s.Launchable) {w : InstrWord} {rest : List InstrWord}
    (hp : s.program = w :: rest) (hd : decode w = .notInScope w) :
    step s = .refused (.notInScope w) := by
  obtain ⟨hvalid, haligned⟩ := hs
  refine step_of_fetch_refused ?_
  rw [fetch, if_neg (by simp [hvalid]), if_neg (not_not.2 haligned)]
  simp only [hp, hd]

/-- A step that faults executed an instruction of the program that faults. -/
theorem step_fault_cases {s : State} {f : Fault} (h : step s = .fault f) :
    ∃ w rest i, s.program = w :: rest ∧ decode w = .instr i ∧ exec i s = .fault f := by
  unfold step at h
  split at h
  · cases h
  · rename_i i hf
    split at h
    · cases h
    · rename_i he
      cases h
      obtain ⟨-, -, w, rest, hp, hd⟩ := fetch_instr_cases hf
      exact ⟨w, rest, i, hp, hd, he⟩
    · cases h

/-- A step that a launchable state with a word left refuses, it refuses for that word. -/
theorem step_refused_cases {s : State} (hs : s.Launchable) {w : InstrWord} {rest : List InstrWord}
    (hp : s.program = w :: rest) {r : Refusal} (h : step s = .refused r) :
    decode w = .notInScope w ∧ r = .notInScope w := by
  by_cases hd : ∃ i, decode w = .instr i
  · obtain ⟨i, hd⟩ := hd
    obtain ⟨hnext, hfault⟩ := step_of_decode hs hp hd
    cases he : exec i s with
    | next t => rw [hnext t he] at h; cases h
    | fault f => rw [hfault f he] at h; cases h
    | refused r => exact absurd he (exec_not_refused i s r)
  · have hforeign := decode_eq_notInScope_of_encode_ne fun i hi =>
      hd ⟨i, decode_eq_instr_iff.2 hi⟩
    rw [step_of_notInScope hs hp hforeign] at h
    cases h
    exact ⟨hforeign, rfl⟩

/-- Settles O44. -/
theorem stepRunsDecodedInstruction : Obligations.StepRunsDecodedInstruction := by
  unfold Obligations.StepRunsDecodedInstruction
  intro s w rest i hs hp hd
  obtain ⟨hnext, hfault⟩ := step_of_decode hs hp hd
  cases he : exec i s with
  | next t => exact hnext t he
  | fault f => exact hfault f he
  | refused r => exact absurd he (exec_not_refused i s r)

/-- Settles O46. -/
theorem misalignedPcRefused : Obligations.MisalignedPcRefused := by
  unfold Obligations.MisalignedPcRefused
  intro s hvalid hpc
  refine step_of_fetch_refused ?_
  rw [fetch, if_neg (by simp [hvalid]), if_pos hpc]

/-- Settles O47. -/
theorem foreignWordRefused : Obligations.ForeignWordRefused := by
  unfold Obligations.ForeignWordRefused
  intro s w rest hmrs hmsr
  have hforeign := decode_eq_notInScope_of_masked_ne hmrs hmsr
  exact ⟨hforeign, fun hs hp => step_of_notInScope hs hp hforeign⟩

/-! What a step keeps. -/

theorem pcAligned_add_four {pc : XWord} (h : pc.toNat % 4 = 0) : (pc + 4#64).toNat % 4 = 0 := by
  rw [BitVec.toNat_add, BitVec.toNat_ofNat]
  omega

/-- A step that answers a next state: the invariant before, one word fewer, the pc 4 further, the
implementation and the inputs as they were. -/
theorem step_next_frame {s t : State} (h : step s = .next t) :
    s.Launchable ∧ s.program ≠ [] ∧ t.program = s.program.tail ∧ t.pc = s.pc + 4#64 ∧
      t.impl = s.impl ∧ s.SameInputs t := by
  obtain ⟨hvalid, haligned, -, rt, w, rest, hp, -, rfl⟩ := step_next_cases h
  refine ⟨⟨hvalid, haligned⟩, by simp [hp], ?_⟩
  simp [State.SameInputs]

theorem step_next_launchable {s t : State} (h : step s = .next t) : t.Launchable := by
  obtain ⟨⟨hvalid, haligned⟩, -, -, hpc, himpl, -⟩ := step_next_frame h
  exact ⟨himpl ▸ hvalid, by rw [pcAligned, hpc]; exact pcAligned_add_four haligned⟩

/-- Settles O45. -/
theorem configurationConstantAndChecked : Obligations.ConfigurationConstantAndChecked := by
  unfold Obligations.ConfigurationConstantAndChecked
  constructor
  · intro s t h
    obtain ⟨-, -, -, -, himpl, -⟩ := step_next_frame h
    exact himpl
  · exact fun s hinvalid => step_of_fetch_refused (if_pos hinvalid)

/-- Settles O48. -/
theorem stepKeepsInputs : Obligations.StepKeepsInputs := by
  unfold Obligations.StepKeepsInputs
  intro s t h
  obtain ⟨-, -, -, -, -, hinputs⟩ := step_next_frame h
  exact hinputs

/-- Settles O49. -/
theorem stepKeepsLaunchable : Obligations.StepKeepsLaunchable := by
  unfold Obligations.StepKeepsLaunchable
  intro s t _ h
  obtain ⟨-, -, hprogram, -, himpl, -⟩ := step_next_frame h
  exact ⟨step_next_launchable h, by rw [himpl], hprogram⟩

theorem exec_fault_stopped {i : Instr} {s : State} {f : Fault} (h : exec i s = .fault f) :
    f.stopped = s := by
  cases i with
  | mrsIdAa64mmfr2 rt =>
    rcases (exec_mrs_fault_iff rt s f).1 h with ⟨_, _, _, rfl⟩ | ⟨_, _, rfl⟩ <;> rfl
  | msrIdAa64mmfr2 rt =>
    rw [exec_msr] at h
    cases h
    rfl

/-- Settles O41. -/
theorem programCounterAdvance : Obligations.ProgramCounterAdvance := by
  unfold Obligations.ProgramCounterAdvance
  refine ⟨fun rt s t h => ?_, fun rt s f h => ?_, fun s t h => (step_next_launchable h).2⟩
  · obtain ⟨-, rfl⟩ := (exec_mrs_next_iff rt s t).1 h
    rw [advancePc_pc, writeX_pc, BitVec.toNat_add]
    rfl
  · rw [exec_fault_stopped h]

/-- Settles O58: the step of PE `n` sets entry `n` of the list. -/
theorem pesAreIndependent : Obligations.PesAreIndependent := by
  unfold Obligations.PesAreIndependent
  intro pes pes' n h
  unfold stepPe at h
  split at h
  · cases h
  · rename_i s hs
    split at h
    · rename_i t ht
      cases h
      obtain ⟨hn, -⟩ := List.getElem?_eq_some_iff.1 hs
      exact ⟨List.length_set, fun k hk => List.getElem?_set_ne hk.symm, s, t, hs, ht,
        List.getElem?_set_self hn⟩
    · cases h
    · cases h

/-! Reset. -/

/-- Settles O50. -/
theorem resetIsLaunchable : Obligations.ResetIsLaunchable := by
  unfold Obligations.ResetIsLaunchable
  decide

/-- Settles O51. -/
theorem resetStateValues : Obligations.ResetStateValues := by
  unfold Obligations.ResetStateValues
  refine ⟨rfl, rfl, rfl, rfl, rfl, rfl, fun n => ?_, rfl, rfl, rfl, rfl, rfl, rfl, rfl⟩
  simp [readX, State.reset]

end Sys2Proof.Machine
end

section
/-! SUPPORT. Proofs of the statements about runs (60_exceptions.md section 4,
70_reset_and_hazards.md section 5): a run that answers a next state composes, keeps the
invariant and executed reads alone; a run of reads at a level that may read completes; a run that ends otherwise
ended at the step of a state it reached. Each is an induction on the number of steps. -/

namespace Sys2Proof.Machine

/-! Runs that answer a next state. -/

theorem runFor_add {j : Nat} (k : Nat) {s t : State} (h : runFor j s = .next t) :
    runFor (j + k) s = runFor k t := by
  induction j generalizing s with
  | zero =>
    cases h
    rw [Nat.zero_add]
  | succ j ih =>
    obtain ⟨u, hstep, hrun⟩ := runFor_succ_next h
    rw [Nat.succ_add, runFor_of_next _ hstep, ih hrun]

theorem runFor_next_launchable {k : Nat} {s t : State} (hs : s.Launchable)
    (h : runFor k s = .next t) : t.Launchable := by
  induction k generalizing s with
  | zero =>
    cases h
    exact hs
  | succ k ih =>
    obtain ⟨u, hstep, hrun⟩ := runFor_succ_next h
    exact ih (step_next_launchable hstep) hrun

/-- A run of `k` steps executed the first `k` words, each 4 bytes long. -/
theorem runFor_next_frame {k : Nat} {s t : State} (h : runFor k s = .next t) :
    k ≤ s.program.length ∧ t.program = s.program.drop k ∧
      t.pc = s.pc + BitVec.ofNat 64 (4 * k) ∧ t.impl = s.impl ∧ s.SameInputs t := by
  induction k generalizing s with
  | zero =>
    cases h
    exact ⟨Nat.zero_le _, rfl, (BitVec.add_zero _).symm, rfl, rfl, rfl, rfl, rfl, rfl⟩
  | succ k ih =>
    obtain ⟨u, hstep, hrun⟩ := runFor_succ_next h
    obtain ⟨-, hne, hprogram, hpc, himpl, hel, htge, htid3, hen, ha32⟩ := step_next_frame hstep
    obtain ⟨hk, hprogram', hpc', himpl', hel', htge', htid3', hen', ha32'⟩ := ih hrun
    refine ⟨?_, ?_, ?_, himpl'.trans himpl, hel.trans hel', htge.trans htge', htid3.trans htid3',
      hen.trans hen', ha32.trans ha32'⟩
    · rw [hprogram, List.length_tail] at hk
      have := List.length_pos_iff.2 hne
      omega
    · rw [hprogram', hprogram, List.drop_tail]
    · rw [hpc', hpc, BitVec.add_assoc, Nat.mul_succ, Nat.add_comm, BitVec.ofNat_add]

/-- The words a run executed are reads, and a register holds `REGVAL` after it if one of them names
the register, and what it held before if none does. -/
theorem runFor_next_reads {k : Nat} {s t : State} (h : runFor k s = .next t) :
    (∀ w ∈ s.program.take k, ∃ rt, decode w = .instr (.mrsIdAa64mmfr2 rt)) ∧
    ∀ n : Fin 31, readX n t =
      if ∃ w ∈ s.program.take k, decode w = .instr (.mrsIdAa64mmfr2 (.x n)) then s.impl.regval
      else readX n s := by
  induction k generalizing s with
  | zero =>
    cases h
    simp
  | succ k ih =>
    obtain ⟨u, hstep, hrun⟩ := runFor_succ_next h
    obtain ⟨-, -, -, rt, w, rest, hp, hd, rfl⟩ := step_next_cases hstep
    obtain ⟨hreads, hregs⟩ := ih hrun
    simp only [retire_program, advancePc_program, writeX_program, hp, List.tail_cons, retire_impl,
      advancePc_impl, writeX_impl, readX_retire, readX_advancePc] at hreads hregs
    simp only [hp, List.take_succ_cons, List.forall_mem_cons, List.exists_mem_cons_iff]
    refine ⟨⟨⟨rt, hd⟩, hreads⟩, fun n => ?_⟩
    rw [hregs n]
    by_cases hrt : rt = .x n
    · subst hrt
      simp [hd]
    · rw [readX_writeX_other hrt]
      simp [hd, hrt]

/-- Settles O53. -/
theorem runAdvances : Obligations.RunAdvances := by
  unfold Obligations.RunAdvances
  intro k s t h
  obtain ⟨hk, hprogram, hpc, himpl, hinputs⟩ := runFor_next_frame h
  refine ⟨hk, ?_, hprogram, himpl, hinputs⟩
  rw [hpc, BitVec.toNat_add, BitVec.toNat_ofNat, Nat.add_mod_mod]

/-- Settles O54: both reads return the register, which a run keeps. -/
theorem readsOfOneRunAgree : Obligations.ReadsOfOneRunAgree := by
  unfold Obligations.ReadsOfOneRunAgree
  intro k n m s t s' t' hrun hs ht
  obtain ⟨-, -, -, himpl, -⟩ := runFor_next_frame hrun
  obtain ⟨-, rfl⟩ := (exec_mrs_next_iff _ _ _).1 hs
  obtain ⟨-, rfl⟩ := (exec_mrs_next_iff _ _ _).1 ht
  rw [readX_advancePc, readX_advancePc, readX_writeX_same, readX_writeX_same, himpl]

/-! Runs of reads. -/

theorem State.MayRead.of_sameInputs {s t : State} (hs : s.MayRead) (h : s.SameInputs t) :
    t.MayRead := by
  obtain ⟨hel, -, htid3, hen, ha32⟩ := h
  rwa [State.MayRead, ← hel, ← htid3, ← hen, ← ha32]

/-- A program's reads complete at a level that may read, whatever words follow them. -/
theorem runFor_reads_completes {reads rest : List InstrWord} {s : State} (hs : s.Launchable)
    (hread : s.MayRead) (hp : s.program = reads ++ rest)
    (hreads : ∀ w ∈ reads, ∃ rt, decode w = .instr (.mrsIdAa64mmfr2 rt)) :
    ∃ t, runFor reads.length s = .next t := by
  induction reads generalizing s with
  | nil => exact ⟨s, rfl⟩
  | cons w reads ih =>
    obtain ⟨⟨rt, hd⟩, hreads⟩ := List.forall_mem_cons.1 hreads
    have hexec := exec_mrs_of_access_value ((accessOf_eq_value_iff s).2 hread) rt
    have hstep := (step_of_decode hs hp hd).1 _ hexec
    obtain ⟨-, -, hprogram, -, -, hinputs⟩ := step_next_frame hstep
    obtain ⟨t, hrun⟩ := ih (step_next_launchable hstep) (hread.of_sameInputs hinputs)
      (by rw [hprogram, hp]; rfl) hreads
    exact ⟨t, by rw [List.length_cons, runFor_of_next _ hstep, hrun]⟩

/-- Settles O55: the run completes, and what it leaves is that of any run that completes. -/
theorem runOfReadsCompletes : Obligations.RunOfReadsCompletes := by
  unfold Obligations.RunOfReadsCompletes
  intro s hs hread hreads
  obtain ⟨t, hrun⟩ := runFor_reads_completes hs hread (List.append_nil _).symm hreads
  obtain ⟨-, hpc, hprogram, -, -⟩ := runAdvances _ s t hrun
  obtain ⟨-, hregs⟩ := runFor_next_reads hrun
  rw [List.take_length] at hregs
  refine ⟨t, hrun, by rw [hprogram, List.drop_length], hpc, fun n => ⟨fun h => ?_, fun h => ?_⟩⟩
  · rw [hregs n, if_pos h]
  · rw [hregs n, if_neg h]

/-! Runs that end before their last step. -/

/-- A run that answers no next state answers what the step of a state it reached answers. -/
theorem runFor_eq_step_of_ne_next {k : Nat} {s : State} (h : ∀ t, runFor k s ≠ .next t) :
    ∃ j u, j < k ∧ runFor j s = .next u ∧ step u = runFor k s := by
  induction k generalizing s with
  | zero => exact absurd rfl (h s)
  | succ k ih =>
    cases hstep : step s with
    | next u =>
      rw [runFor_of_next k hstep] at h ⊢
      obtain ⟨j, v, hj, hrun, hv⟩ := ih h
      exact ⟨j + 1, v, Nat.succ_lt_succ hj, by rw [runFor_of_next j hstep, hrun], hv⟩
    | fault f => exact ⟨0, s, k.succ_pos, rfl, by rw [hstep, runFor_of_fault k hstep]⟩
    | refused r => exact ⟨0, s, k.succ_pos, rfl, by rw [hstep, runFor_of_refused k hstep]⟩

theorem runFor_fault_cases {k : Nat} {s : State} {f : Fault} (h : runFor k s = .fault f) :
    ∃ j u, j < k ∧ runFor j s = .next u ∧ step u = .fault f :=
  h ▸ runFor_eq_step_of_ne_next (by simp [h])

theorem runFor_refused_cases {k : Nat} {s : State} {r : Refusal} (h : runFor k s = .refused r) :
    ∃ j u, j < k ∧ runFor j s = .next u ∧ step u = .refused r :=
  h ▸ runFor_eq_step_of_ne_next (by simp [h])

/-- Settles O52. -/
theorem exceptionsArePrecise : Obligations.ExceptionsArePrecise := by
  unfold Obligations.ExceptionsArePrecise
  refine ⟨fun _ _ _ => exec_fault_stopped, fun k s f h => ?_⟩
  obtain ⟨j, u, hj, hrun, hstep⟩ := runFor_fault_cases h
  obtain ⟨_, _, _, -, -, hexec⟩ := step_fault_cases hstep
  rw [exec_fault_stopped hexec]
  exact ⟨j, hj, hrun, hstep⟩

/-- Settles O56: a run ends at its last word or at the step of a state it reached, whose next word
is one of the program's. -/
theorem runEndsInOneOfThreeWays : Obligations.RunEndsInOneOfThreeWays := by
  unfold Obligations.RunEndsInOneOfThreeWays
  intro s hs
  cases h : runProgram s with
  | next t =>
    obtain ⟨-, hprogram, hpc, -, -⟩ := runFor_next_frame h
    obtain ⟨hreads, -⟩ := runFor_next_reads h
    rw [List.take_length] at hreads
    exact ⟨by rw [hprogram, List.drop_length], hpc, hreads⟩
  | fault f =>
    obtain ⟨j, u, -, hrun, hstep⟩ := runFor_fault_cases h
    obtain ⟨w, rest, i, hp, hd, hexec⟩ := step_fault_cases hstep
    obtain ⟨-, hprogram, -, -, -⟩ := runFor_next_frame hrun
    have hmem : w ∈ s.program.drop j := by simp [← hprogram, hp]
    exact ⟨w, List.mem_of_mem_drop hmem, i, hd, by rwa [exec_fault_stopped hexec]⟩
  | refused r =>
    obtain ⟨j, u, hj, hrun, hstep⟩ := runFor_refused_cases h
    obtain ⟨-, hprogram, -, -, -⟩ := runFor_next_frame hrun
    obtain ⟨w, rest, hp⟩ := List.exists_cons_of_length_pos (List.length_drop ▸ Nat.sub_pos_of_lt hj)
    rw [← hprogram] at hp
    have hmem : w ∈ s.program.drop j := by simp [← hprogram, hp]
    exact ⟨w, List.mem_of_mem_drop hmem,
      step_refused_cases (runFor_next_launchable hs hrun) hp hstep⟩

/-- Settles O57: the reads complete, and the next step stops. -/
theorem runStopsAtFirstStop : Obligations.RunStopsAtFirstStop := by
  unfold Obligations.RunStopsAtFirstStop
  intro s reads rest w hs hread hp hreads
  obtain ⟨t, hrun⟩ := runFor_reads_completes hs hread hp hreads
  obtain ⟨-, hprogram, -, -, hinputs⟩ := runFor_next_frame hrun
  have ht := runFor_next_launchable hs hrun
  rw [hp, List.drop_left] at hprogram
  have hwhole : runProgram s = runFor (rest.length + 1) t := by
    rw [runProgram, hp, List.length_append, runFor_add _ hrun, List.length_cons]
  rw [hwhole]
  refine ⟨fun hd => ?_, fun rt hd => ⟨t, hrun, ?_⟩⟩
  · exact runFor_of_refused _ (step_of_notInScope ht hprogram hd)
  · have hel : t.el ≠ .EL0 := by
      rcases hread.of_sameInputs hinputs with hel | hel | ⟨hel, -⟩ <;> simp [hel]
    rw [hinputs.1, ← undefTargetOf_of_ne_EL0 hel]
    exact runFor_of_fault _ ((step_of_decode ht hprogram hd).2 _ (exec_msr rt t))

end Sys2Proof.Machine
end
